-- ==== Sys2Proof/Word.lean ====
section
/-! DEFINITION. The two bit-vector types of the block: an 8-bit bytecode unit and a 64-bit value (00_scope.md R5, R6). -/

namespace Sys2Proof

/-- `BYTE_WIDTH`: one bytecode unit (00_scope.md R5). -/
abbrev Byte := BitVec 8

/-- `VALUE_WIDTH`: the pattern of a stack slot, a register or a literal (00_scope.md R5, R6 `u64`). -/
abbrev Word := BitVec 64

end Sys2Proof
end

