-- ==== Sys2Proof/Config.lean ====
section
/-! DEFINITION. What is fixed for one block: the types of the parameters of 00_scope.md R5, the stack capacity, and the one
free value. The parameter values a test could show wrong stand where a repair may mend them: `opcodeMap` and `wireOrder` in
Decode.lean, the others in Machine/Params.lean. -/

namespace Sys2Proof

/-- The 18 opcodes, in the order of the table (30_encoding.md R75), spelled as the table spells them. -/
inductive Opcode where
  | HALT | NOP | DCONST_M1 | DCONST_0 | DCONST_1 | DCONST_2 | DCONST | ADD | SUB | MUL | DIV | NEG
  | ST1 | ST2 | LD1 | LD2 | PRINT | MOV
  deriving DecidableEq, Repr

/-- Every opcode, in table order. -/
def Opcode.all : List Opcode :=
  [.HALT, .NOP, .DCONST_M1, .DCONST_0, .DCONST_1, .DCONST_2, .DCONST, .ADD, .SUB, .MUL, .DIV, .NEG,
   .ST1, .ST2, .LD1, .LD2, .PRINT, .MOV]

/-- `OPCODE_MAP`: the byte value of each opcode (00_scope.md R5). -/
abbrev OpcodeMap := Opcode → Byte

/-- The constraints on `OPCODE_MAP` (30_encoding.md R83): distinct values, and `0xFF` left unassigned. -/
def OpcodeMap.Legal (m : OpcodeMap) : Prop :=
  (∀ p q : Opcode, m p = m q → p = q) ∧ ∀ p : Opcode, m p ≠ 0xFF#8

/-- `WIRE_ORDER`: the byte order of a DCONST literal (20_memory.md R54). -/
inductive WireOrder where
  | big | little
  deriving DecidableEq, Repr

/-- `PRINT_TIE`: what happens to a decimal tie at the sixth fractional digit (45_output.md R194). -/
inductive TieRule where
  | halfEven | halfAway
  deriving DecidableEq, Repr

/-- The scalar registers (10_state.md R24), also the values of `LD2_SOURCE` (44_registers.md R173). -/
inductive Reg where
  | r1 | r2
  deriving DecidableEq, Repr

/-- The binary operations of the arithmetic unit (43_arithmetic.md R150). -/
inductive ArithOp where
  | add | sub | mul | div
  deriving DecidableEq, Repr

/-- `STACK_CAP`: the number of stack slots, 256 (10_state.md R26, D15). It stands in the type of the stack. -/
abbrev stackCap : Nat := 256

/-- FREE VALUE, no body. The sign and the payload of the NaN an operation returns are "a configuration function of the
operation and the operands alone" (40_numeric_decoder.md R107, D6). `nanResult` of Machine/Float64.lean makes it quiet. -/
opaque Config.nanPattern : ArithOp → Word → Word → Word

end Sys2Proof
end

