-- ==== Sys2Proof/Machine/Float64.lean ====
section
/-! DEFINITION. IEEE-754 binary64 on 64-bit patterns (40_numeric_decoder.md R100, R104 to R110). A finite magnitude is held
exactly, as a natural number of units of 2^-1074 (the smallest subnormal), and every operation rounds once at the end. -/

namespace Sys2Proof.Machine

/-! ### Fields and classes (R100) -/

/-- `s = w[63]`. -/
def signBit (w : Word) : Bool := w.getLsbD 63

/-- `E = w[62:52]`, the biased exponent. -/
def expField (w : Word) : Nat := (w.extractLsb' 52 11).toNat

/-- `F = w[51:0]`, the fraction. -/
def fracField (w : Word) : Nat := (w.extractLsb' 0 52).toNat

/-- `E = 2047` and `F != 0`. -/
def isNaN (w : Word) : Bool := expField w == 2047 && fracField w != 0

/-- A NaN with `F[51] = 1`. -/
def isQuietNaN (w : Word) : Bool := isNaN w && w.getLsbD 51

/-- `E = 2047` and `F = 0`. -/
def isInf (w : Word) : Bool := expField w == 2047 && fracField w == 0

/-- `E = 0` and `F = 0`. -/
def isZero (w : Word) : Bool := expField w == 0 && fracField w == 0

/-- `E = 0` and `F != 0`. -/
def isSubnormal (w : Word) : Bool := expField w == 0 && fracField w != 0

/-- Neither a NaN nor an infinity. -/
def isFinite (w : Word) : Bool := expField w != 2047

/-- The magnitude of a finite value in units of 2^-1074: `F` for a zero or a subnormal, `(2^52 + F) * 2^(E-1)` for a normal. -/
def magnitude (w : Word) : Nat :=
  if expField w = 0 then fracField w else (2 ^ 52 + fracField w) <<< (expField w - 1)

/-- The number of units in 1.0, that is 2^1074. -/
def unitsPerOne : Nat := 1 <<< 1074

/-- The signed value of a finite pattern in units of 2^-1074. -/
def signedUnits (w : Word) : Int := if signBit w then - (magnitude w : Int) else (magnitude w : Int)

/-! ### Packing and rounding (R104 to R106, R110) -/

/-- The pattern of the magnitude bits `m`, below 2^63, with the sign `s`. -/
def pack (s : Bool) (m : Nat) : Word := BitVec.ofNat 64 ((if s then 2 ^ 63 else 0) + m)

/-- The magnitude bits of an infinity: `E = 2047`, `F = 0`. -/
def infMagnitude : Nat := 2047 * 2 ^ 52

/-- The zero of a sign. -/
def zeroOf (s : Bool) : Word := pack s 0

/-- The infinity of a sign. -/
def infOf (s : Bool) : Word := pack s infMagnitude

/-- The natural number nearest to `n / d`, for positive `d`, a tie broken by the rule (R105; 45_output.md R194). -/
def roundQuot (tie : TieRule) (n d : Nat) : Nat :=
  let q := n / d
  let r := n % d
  if 2 * r < d then q
  else if d < 2 * r then q + 1
  else
    match tie with
    | .halfEven => if q % 2 = 0 then q else q + 1
    | .halfAway => q + 1

/-- How many low bits a 53-bit significand drops from `q` units: none up to 2^53, the gradual underflow of R106. -/
def droppedBits (q : Nat) : Nat := Nat.log2 q - 52

/-- The magnitude bits of the binary64 nearest to `n / d` units, ties to even (R105). With `k` bits dropped the significand `m` is
at most 2^53 and the pattern is `k * 2^52 + m`: a significand that rounds up to 2^53 carries into the exponent, a subnormal has
`k = 0` and `m < 2^52`, and anything past the largest finite pattern is an infinity (R110). -/
def roundMagnitude (n d : Nat) : Nat :=
  let k := droppedBits (n / d)
  min (k * 2 ^ 52 + roundQuot .halfEven n (d <<< k)) infMagnitude

/-! ### The operations (R107 to R110) -/

/-- `fneg` (R108): bit 63 flipped, whatever the pattern. -/
def fneg (x : Word) : Word := x ^^^ 0x8000000000000000#64

/-- The pattern `Config.nanPattern` is asked for. With a NaN operand it is the operation's own. An invalid operation on numbers must
give the same NaN in both operand orders under ADD and MUL (43_arithmetic.md R157), and under SUB the NaN of ADD with `b` negated
(R109), so the operands are put in one order first: the positive infinity under ADD, the zero under MUL, log 6. -/
def nanChoice (op : ArithOp) (a b : Word) : Word :=
  if isNaN a || isNaN b then Config.nanPattern op a b
  else
    match op with
    | .add => if signBit a then Config.nanPattern .add b a else Config.nanPattern .add a b
    | .sub => if signBit a then Config.nanPattern .add (fneg b) a else Config.nanPattern .add a (fneg b)
    | .mul => if isInf a then Config.nanPattern .mul b a else Config.nanPattern .mul a b
    | .div => Config.nanPattern .div a b

/-- `NAN_RESULT` (R107): some quiet NaN, its sign and remaining payload free. -/
def nanResult (op : ArithOp) (a b : Word) : Word := nanChoice op a b ||| 0x7FF8000000000000#64

/-- The rounded sum of two finite values. An exact zero is `+0`, but `-0` for `(-0) + (-0)` (R109). -/
def addFinite (a b : Word) : Word :=
  let x := signedUnits a + signedUnits b
  if x = 0 then zeroOf (signBit a && signBit b) else pack (decide (x < 0)) (roundMagnitude x.natAbs 1)

/-- The sum of two patterns of which neither is a NaN and which are not infinities of unlike sign (R109, R110). -/
def addNumbers (a b : Word) : Word :=
  if isInf a then a else if isInf b then b else addFinite a b

/-- `inf + (-inf)` is invalid (R107). -/
def addInvalid (a b : Word) : Bool := isInf a && isInf b && signBit a != signBit b

/-- `fadd` (00_scope.md R8). -/
def fadd (a b : Word) : Word :=
  if isNaN a || isNaN b || addInvalid a b then nanResult .add a b else addNumbers a b

/-- `fsub` (00_scope.md R8): `fadd(a, fneg(b))` for every non-NaN pair (R109), with NaN results of its own (R107). -/
def fsub (a b : Word) : Word :=
  if isNaN a || isNaN b || addInvalid a (fneg b) then nanResult .sub a b else addNumbers a (fneg b)

/-- The sign of a product or a quotient: the XOR of the operand signs (R109). -/
def signXor (a b : Word) : Bool := signBit a != signBit b

/-- `0 * inf` is invalid (R107). -/
def mulInvalid (a b : Word) : Bool := (isZero a && isInf b) || (isInf a && isZero b)

/-- `fmul` (00_scope.md R8). -/
def fmul (a b : Word) : Word :=
  if isNaN a || isNaN b || mulInvalid a b then nanResult .mul a b
  else if isInf a || isInf b then infOf (signXor a b)
  else pack (signXor a b) (roundMagnitude (magnitude a * magnitude b) unitsPerOne)

/-- `inf / inf` and `0 / 0` are invalid (R107, and 93_implementation_defined.md G5). -/
def divInvalid (a b : Word) : Bool := (isInf a && isInf b) || (isZero a && isZero b)

/-- `fdiv` (00_scope.md R8). DIV never calls it with a zero divisor (43_arithmetic.md R155); its value there, an infinity or a
NaN, is IEEE-754's and no run depends on it, log 7. -/
def fdiv (a b : Word) : Word :=
  if isNaN a || isNaN b || divInvalid a b then nanResult .div a b
  else if isInf a || isZero b then infOf (signXor a b)
  else if isInf b then zeroOf (signXor a b)
  else pack (signXor a b) (roundMagnitude (magnitude a * unitsPerOne) (magnitude b))

end Sys2Proof.Machine
end

