-- ==== Sys2Proof/Machine/Flags.lean ====
section
/-! DEFINITION. The block has NO flags (10_state.md R30) and records no IEEE condition (40_numeric_decoder.md R111). What stands
here is the one condition the block computes: floating-point equality, and the divisor test of DIV built on it. -/

namespace Sys2Proof.Machine

/-- `feq` (00_scope.md R8): false when either side is NaN, true for `+0 == -0`. -/
def feq (x y : Word) : Bool :=
  !isNaN x && !isNaN y && (x == y || (isZero x && isZero y))

/-- The DIV zero test `b == 0` (40_numeric_decoder.md R112). -/
def isZeroDivisor (b : Word) : Bool := feq b 0x0000000000000000#64

end Sys2Proof.Machine
end

