-- ==== Sys2Proof/Syntax.lean ====
section
/-! DEFINITION. The instructions of AM-bytecode, one constructor per row of spec/opcode_table.json (30_encoding.md R75). -/

namespace Sys2Proof

/-- One decoded instruction: the opcode and, for DCONST and MOV, the operand bytes that follow it (30_encoding.md R71). The
other sixteen have no operand field: what they use comes from the stack or the registers (R72). -/
inductive Instr where
  | halt
  | nop
  | dconstM1
  | dconst0
  | dconst1
  | dconst2
  /-- `lit` is the 64-bit pattern the byte decoder gives for the literal (R74). -/
  | dconst (lit : Word)
  | add
  | sub
  | mul
  | div
  | neg
  | st1
  | st2
  | ld1
  | ld2
  | print
  /-- `src` is the high nibble and `dst` the low nibble of the operand byte (R73). -/
  | mov (src dst : BitVec 4)
  deriving DecidableEq, Repr

end Sys2Proof
end

