-- ==== Sys2Proof/WellFormed.lean ====
section
/-! DEFINITION. Which instructions are legal: only MOV has an operand that can be illegal (30_encoding.md R78 to R80). -/

namespace Sys2Proof

/-- The two register pairs MOV defines: source 1 to destination 2, and source 2 to destination 1 (30_encoding.md R78). -/
def legalPair (src dst : BitVec 4) : Bool :=
  (src == 1#4 && dst == 2#4) || (src == 2#4 && dst == 1#4)

/-- Every literal is legal (R79) and MOV has two legal operands (R78). An ill-formed MOV is still an instruction: it decodes,
and it raises InvalidArgument when it runs (44_registers.md R174). -/
def Instr.wellFormed : Instr → Bool
  | .halt => true
  | .nop => true
  | .dconstM1 => true
  | .dconst0 => true
  | .dconst1 => true
  | .dconst2 => true
  | .dconst _ => true
  | .add => true
  | .sub => true
  | .mul => true
  | .div => true
  | .neg => true
  | .st1 => true
  | .st2 => true
  | .ld1 => true
  | .ld2 => true
  | .print => true
  | .mov src dst => legalPair src dst

end Sys2Proof
end

