-- ==== Sys2Proof/Decode.lean ====
section
/-! DEFINITION. Bytes to instructions and back: the opcode map, the byte decoder `decode64`, the instruction decoder, the
encoder, and the opcode table's numbering of an instruction's bits (30_encoding.md, 40_numeric_decoder.md R101 to R103). -/

namespace Sys2Proof

/-! ### The parameter values -/

/-- `OPCODE_MAP` (30_encoding.md R75). DESIGN CHOICE of the spec (D1), log 2. -/
def opcodeMap : OpcodeMap
  | .HALT => 0x00#8
  | .NOP => 0x01#8
  | .DCONST_M1 => 0x02#8
  | .DCONST_0 => 0x03#8
  | .DCONST_1 => 0x04#8
  | .DCONST_2 => 0x05#8
  | .DCONST => 0x06#8
  | .ADD => 0x07#8
  | .SUB => 0x08#8
  | .MUL => 0x09#8
  | .DIV => 0x0A#8
  | .NEG => 0x0B#8
  | .ST1 => 0x0C#8
  | .ST2 => 0x0D#8
  | .LD1 => 0x0E#8
  | .LD2 => 0x0F#8
  | .PRINT => 0x10#8
  | .MOV => 0x11#8

/-- `WIRE_ORDER` (20_memory.md R54). DESIGN CHOICE of the spec (D2), log 3. -/
def wireOrder : WireOrder := .big

/-! ### The byte decoder -/

/-- `decode64` (40_numeric_decoder.md R101): pure, total, bit-exact (R102). -/
def decode64 (o : WireOrder) (b0 b1 b2 b3 b4 b5 b6 b7 : Byte) : Word :=
  match o with
  | .big => b0 ++ b1 ++ b2 ++ b3 ++ b4 ++ b5 ++ b6 ++ b7
  | .little => b7 ++ b6 ++ b5 ++ b4 ++ b3 ++ b2 ++ b1 ++ b0

/-- The byte of `w` whose least significant bit is bit `8 * k`. -/
def byteOf (w : Word) (k : Nat) : Byte := w.extractLsb' (8 * k) 8

/-- `encode64` (40_numeric_decoder.md R103), the inverse of `decode64`: the 8 bytes of a pattern, lowest program index first. -/
def encode64 (o : WireOrder) (w : Word) : List Byte :=
  match o with
  | .big => [byteOf w 7, byteOf w 6, byteOf w 5, byteOf w 4, byteOf w 3, byteOf w 2, byteOf w 1, byteOf w 0]
  | .little => [byteOf w 0, byteOf w 1, byteOf w 2, byteOf w 3, byteOf w 4, byteOf w 5, byteOf w 6, byteOf w 7]

/-! ### The MOV operand byte -/

/-- `src = m[7:4]` (30_encoding.md R73). -/
def movSrc (m : Byte) : BitVec 4 := m.extractLsb' 4 4

/-- `dst = m[3:0]` (30_encoding.md R73). -/
def movDst (m : Byte) : BitVec 4 := m.extractLsb' 0 4

/-- The operand byte of a pair of nibbles, the source more significant. -/
def movByte (src dst : BitVec 4) : Byte := src ++ dst

/-! ### Instructions as opcodes and lengths -/

/-- The opcode of an instruction. -/
def Instr.opcode : Instr → Opcode
  | .halt => .HALT
  | .nop => .NOP
  | .dconstM1 => .DCONST_M1
  | .dconst0 => .DCONST_0
  | .dconst1 => .DCONST_1
  | .dconst2 => .DCONST_2
  | .dconst _ => .DCONST
  | .add => .ADD
  | .sub => .SUB
  | .mul => .MUL
  | .div => .DIV
  | .neg => .NEG
  | .st1 => .ST1
  | .st2 => .ST2
  | .ld1 => .LD1
  | .ld2 => .LD2
  | .print => .PRINT
  | .mov _ _ => .MOV

/-- The length in bytes, which the opcode alone fixes (30_encoding.md R71, R76): F8 is DCONST, F1 is MOV, the rest are F0. -/
def Opcode.length : Opcode → Nat
  | .DCONST => 9
  | .MOV => 2
  | .HALT | .NOP | .DCONST_M1 | .DCONST_0 | .DCONST_1 | .DCONST_2 | .ADD | .SUB | .MUL | .DIV | .NEG
  | .ST1 | .ST2 | .LD1 | .LD2 | .PRINT => 1

/-- The length of an instruction in bytes (30_encoding.md R71). -/
def Instr.length (i : Instr) : Nat := i.opcode.length

/-- The opcode byte of an instruction under `OPCODE_MAP`. -/
def Instr.opcodeByte (i : Instr) : Byte := opcodeMap i.opcode

/-! ### The decoder -/

/-- Why bytes are no instruction. -/
inductive DecodeError where
  /-- There is no byte at all: the opcode fetch runs past the end (41_dispatcher.md R122). -/
  | noByte
  /-- `OPCODE_MAP` does not assign this byte (30_encoding.md R77). -/
  | invalidOpcode (b : Byte)
  /-- The opcode byte is there and its operand bytes are not all there (20_memory.md R53). -/
  | truncated (b : Byte)
  deriving DecidableEq, Repr

/-- The opcode a byte is assigned to, or `none` for `Invalid` (30_encoding.md R76, R77). -/
def decodeOpcode (m : OpcodeMap) (b : Byte) : Option Opcode :=
  Opcode.all.find? (fun p => m p == b)

/-- The instruction of an opcode byte `b` and its opcode, read from the bytes that follow it (30_encoding.md R71 to R74). -/
def decodeOperands (o : WireOrder) (b : Byte) (rest : List Byte) : Opcode → Except DecodeError Instr
  | .HALT => .ok .halt
  | .NOP => .ok .nop
  | .DCONST_M1 => .ok .dconstM1
  | .DCONST_0 => .ok .dconst0
  | .DCONST_1 => .ok .dconst1
  | .DCONST_2 => .ok .dconst2
  | .DCONST =>
    match rest with
    | b0 :: b1 :: b2 :: b3 :: b4 :: b5 :: b6 :: b7 :: _ => .ok (.dconst (decode64 o b0 b1 b2 b3 b4 b5 b6 b7))
    | _ => .error (.truncated b)
  | .ADD => .ok .add
  | .SUB => .ok .sub
  | .MUL => .ok .mul
  | .DIV => .ok .div
  | .NEG => .ok .neg
  | .ST1 => .ok .st1
  | .ST2 => .ok .st2
  | .LD1 => .ok .ld1
  | .LD2 => .ok .ld2
  | .PRINT => .ok .print
  | .MOV =>
    match rest with
    | m :: _ => .ok (.mov (movSrc m) (movDst m))
    | [] => .error (.truncated b)

/-- The decoder under any opcode map and wire order: total on every list of bytes (30_encoding.md R76, 41_dispatcher.md R123). -/
def decodeWith (m : OpcodeMap) (o : WireOrder) : List Byte → Except DecodeError Instr
  | [] => .error .noByte
  | b :: rest =>
    match decodeOpcode m b with
    | none => .error (.invalidOpcode b)
    | some p => decodeOperands o b rest p

/-- The decoder of this block. -/
def decode (bytes : List Byte) : Except DecodeError Instr := decodeWith opcodeMap wireOrder bytes

/-! ### The encoder -/

/-- The operand bytes of an instruction (30_encoding.md R73, R74). -/
def operandBytes (o : WireOrder) : Instr → List Byte
  | .dconst lit => encode64 o lit
  | .mov src dst => [movByte src dst]
  | .halt | .nop | .dconstM1 | .dconst0 | .dconst1 | .dconst2 | .add | .sub | .mul | .div | .neg
  | .st1 | .st2 | .ld1 | .ld2 | .print => []

/-- The bytes of an instruction under any opcode map and wire order, lowest program index first. -/
def encodeWith (m : OpcodeMap) (o : WireOrder) (i : Instr) : List Byte := m i.opcode :: operandBytes o i

/-- The bytes of an instruction of this block. -/
def encode (i : Instr) : List Byte := encodeWith opcodeMap wireOrder i

/-! ### The opcode table's numbering -/

/-- The length in bytes of the longest instruction, DCONST (30_encoding.md R70). -/
def maxLength : Nat := 9

/-- The low `nbits` bits of `w` as the bytes of an instruction: bit 0 is the least significant bit of the first byte, and every
bit above `nbits` is 0. -/
def tableBytes (nbits w : Nat) : List Byte :=
  (List.range maxLength).map (fun k => BitVec.ofNat 8 ((w % 2 ^ nbits) >>> (8 * k)))

/-- The instruction the decoder reads from a word numbered as spec/opcode_table.json numbers it. -/
def decodeTableWord (nbits w : Nat) : Option Instr :=
  match decode (tableBytes nbits w) with
  | .ok i => some i
  | .error _ => none

end Sys2Proof
end

