-- ==== Sys2Proof/Machine/State.lean ====
section
/-! DEFINITION. The state of the block (10_state.md R20), its value after reset (R35), and the reasons a step can stop. -/

namespace Sys2Proof.Machine

/-- The code of `Halted` (10_state.md R21). -/
inductive HaltCode where
  | success | failure
  deriving DecidableEq, Repr

/-- The dispatcher state (10_state.md R21). -/
inductive Mode where
  | running
  | halted (code : HaltCode)
  deriving DecidableEq, Repr

/-- The six fatal conditions, in the order of their codes (60_exceptions.md R200). -/
inductive FatalKind where
  | divisionByZero | invalidOpcode | invalidArgument | stackOverflow | stackUnderflow | programOverrun
  deriving DecidableEq, Repr

/-- The diagnostic record (10_state.md R45). `index` is the spec's `at`, a word Lean keeps for itself. The record stands for the
diagnostic line, whose text the spec leaves open (D12), log 15. -/
structure Diag where
  kind : FatalKind
  index : Nat
  byte : Option Byte
  operand : Option Byte
  a : Option Word
  b : Option Word
  deriving DecidableEq, Repr

/-- A line PRINT emits, without its line feed: ASCII characters (45_output.md R191), log 10. -/
abbrev Line := List Char

/-- The state (10_state.md R20). `prog` is the program input (R41), held here because a step reads it, log 1. A slot of `stack`
that is `none` holds no value (R29), log 9. -/
structure State where
  mode : Mode
  pc : Nat
  r1 : Word
  r2 : Word
  stack : Vector (Option Word) stackCap
  sp : Int
  out : List Line
  diag : Option Diag
  prog : List Host.Cell
  deriving DecidableEq, Repr

/-- Why the model stops. The six fatal conditions are NOT here: the spec describes their entry, so they are next states. -/
inductive Fault where
  /-- Raised by `step` in `Halted`: "no step exists" (41_dispatcher.md R121). Safe: the model does nothing, as the block does. -/
  | halted
  /-- Raised by `pop` when the slot `sp` names holds no value or does not exist: "a model that must read one has a fault to report,
  not a value to invent" (10_state.md R29). Safe, and unreachable from reset. -/
  | unsetSlot
  /-- Raised by `push` when the slot above `sp` does not exist, so `sp` is outside the range of 10_state.md R28. Safe, and
  unreachable from reset. -/
  | badPointer
  deriving DecidableEq, Repr

/-- Why the model has no meaning for an instruction. -/
inductive Refusal where
  /-- Raised by `exec`'s arm of an instruction that has no meaning yet. Safe. No arm of this model raises it. -/
  | notModelled (mnemonic : String)
  deriving DecidableEq, Repr

/-- The state the reset transaction leaves (10_state.md R35, 70_reset_and_hazards.md R230), before a program is supplied. -/
def State.reset : State where
  mode := .running
  pc := 0
  r1 := 0x0000000000000000#64
  r2 := 0x0000000000000000#64
  stack := Vector.replicate stackCap none
  sp := -1
  out := []
  diag := none
  prog := []

end Sys2Proof.Machine
end

