-- ==== Sys2Proof/Machine/Params.lean ====
section
/-! DEFINITION. The parameter values of 00_scope.md R5 that the meanings use. Each is the spec's own decision. -/

namespace Sys2Proof.Machine

/-- `LD2_SOURCE`: the register LD2 reads (44_registers.md R173). DESIGN CHOICE of the spec (D3), log 4. -/
def ld2Source : Reg := .r2

/-- `FAIL_STATUS`: the status of every failure (10_state.md R34). DESIGN CHOICE of the spec (D4), log 5. -/
def failStatus : Nat := 1

/-- `PRINT_TIE` (45_output.md R194). DESIGN CHOICE of the spec (D11), log 10. -/
def printTie : TieRule := .halfEven

/-- `PRINT_INF_TEXT`, by the sign bit (45_output.md R192). DESIGN CHOICE of the spec (D11), log 10. -/
def printInfText : Bool → Line
  | false => ['i', 'n', 'f']
  | true => ['-', 'i', 'n', 'f']

/-- `PRINT_NAN_TEXT`, by the sign bit (45_output.md R193). DESIGN CHOICE of the spec (D11), log 10. -/
def printNanText : Bool → Line
  | false => ['n', 'a', 'n']
  | true => ['-', 'n', 'a', 'n']

/-- The line separator on a byte stream (45_output.md R191): one line feed, `0x0A`. -/
def lineFeed : Char := '\n'

end Sys2Proof.Machine
end

