-- ==== Sys2Proof/Machine/Ops.lean ====
section
/-! DEFINITION. The named operations the meanings share: the program store, the registers, the stack primitives, the output,
taking a fatal condition, and completing an instruction. There is no return from a fatal condition to stand beside its entry: no
instruction leaves `Halted` (60_exceptions.md R209), and a new run starts with `State.start`. -/

namespace Sys2Proof.Machine

/-! ### The program store (20_memory.md R50 to R57)

A list of (index, byte) pairs with strictly rising indexes. An index that is not listed holds no byte, log 1. No instruction writes
it (R51): `store` serves the host's side alone, which loads programs. -/

/-- The program store. -/
abbrev Memory := List Host.Cell

/-- `Prog(i)` (00_scope.md R7): the byte at an index, or `none` where the program has none. -/
def Memory.read : Memory → Nat → Option Byte
  | [], _ => none
  | (k, b) :: rest, i => if k = i then some b else Memory.read rest i

/-- The host puts one byte at an index, keeping the indexes strictly rising. -/
def Memory.store : Memory → Nat → Byte → Memory
  | [], i, b => [(i, b)]
  | (k, c) :: rest, i, b =>
    if i < k then (i, b) :: (k, c) :: rest
    else if i = k then (i, b) :: rest
    else (k, c) :: Memory.store rest i b

/-- The host puts bytes at consecutive indexes. -/
def Memory.storeBytes : Memory → Nat → List Byte → Memory
  | m, _, [] => m
  | m, i, b :: rest => Memory.storeBytes (Memory.store m i b) (i + 1) rest

/-- The program input: the bytes at indexes `0` to `L - 1` (10_state.md R41). -/
def Memory.ofBytes (bytes : List Byte) : Memory := Memory.storeBytes [] 0 bytes

/-- The canonical form: indexes strictly rising from above `low`. An unlisted index reads as nothing, so no entry repeats it. -/
def Memory.risingFrom : Nat → Memory → Bool
  | _, [] => true
  | low, (k, _) :: rest => decide (low ≤ k) && Memory.risingFrom (k + 1) rest

/-- The canonical form of the program store. -/
def Memory.wf (m : Memory) : Bool := Memory.risingFrom 0 m

/-- The indexes are exactly `low`, `low + 1`, and so on. -/
def Memory.denseFrom : Nat → Memory → Bool
  | _, [] => true
  | low, (k, _) :: rest => decide (k = low) && Memory.denseFrom (low + 1) rest

/-- The store is a program input: "an ordered byte sequence" with a byte at every index below `L` (10_state.md R40, R41). -/
def Memory.dense (m : Memory) : Bool := Memory.denseFrom 0 m

/-- `L`: one past the last index that holds a byte (10_state.md R41). -/
def Memory.extent : Memory → Nat
  | [] => 0
  | (k, _) :: rest => max (k + 1) (Memory.extent rest)

/-- The bytes at `addr` and on, at most `n`, up to the first index that holds none. -/
def Memory.window (m : Memory) (addr : Nat) : Nat → List Byte
  | 0 => []
  | n + 1 =>
    match Memory.read m addr with
    | none => []
    | some b => b :: Memory.window m (addr + 1) n

/-- `MemRead(addr, n)` (00_scope.md R7, 20_memory.md R53): the `n` bytes, or nothing when one of them is past the end. -/
def Memory.memRead (m : Memory) (addr n : Nat) : Option (List Byte) :=
  if addr + n ≤ Memory.extent m ∧ (Memory.window m addr n).length = n then some (Memory.window m addr n) else none

/-- `L` of the program a state holds. -/
def State.programLength (s : State) : Nat := Memory.extent s.prog

/-- `Prog(i)` of the program a state holds. -/
def State.programByte (s : State) (i : Nat) : Option Byte := Memory.read s.prog i

/-! ### The start of a run -/

/-- The host supplies the program and applies reset (10_state.md R42, 70_reset_and_hazards.md R232), log 14. -/
def State.start (program : List Byte) : State := { State.reset with prog := Memory.ofBytes program }

/-! ### Effects that can raise

An instruction's effect either yields a value, or raises a fatal condition, or stops the model. `Except` gives the pseudocode's
"after `raise`, nothing else in that instruction happens" (00_scope.md R7). -/

/-- What `raise K(info)` carries beyond the index and the opcode byte (60_exceptions.md R200). -/
inductive FatalInfo where
  | divisionByZero (a b : Word)
  | invalidOpcode
  | invalidArgument (operand : Byte)
  | stackOverflow
  | stackUnderflow
  | programOverrun
  deriving DecidableEq, Repr

/-- Why an effect does not yield a value. -/
inductive Stop where
  /-- The instruction raises a fatal condition. -/
  | raise (info : FatalInfo)
  /-- The model stops: the state breaks the invariant of 10_state.md R28, R29. -/
  | model (f : Fault)
  deriving DecidableEq, Repr

/-- An effect. -/
abbrev Eff (α : Type) := Except Stop α

/-- `raise K(info)` (00_scope.md R7). -/
def raise {α : Type} (info : FatalInfo) : Eff α := .error (.raise info)

/-! ### Registers (10_state.md R24, R25, R46) -/

/-- `r[i]`. -/
def readReg (s : State) : Reg → Word
  | .r1 => s.r1
  | .r2 => s.r2

/-- `r[i] <- v`. -/
def writeReg (s : State) (i : Reg) (v : Word) : State :=
  match i with
  | .r1 => { s with r1 := v }
  | .r2 => { s with r2 := v }

/-! ### The value stack (20_memory.md R58, R59) -/

/-- The value slot `i` holds, or `none` when the slot holds none or does not exist (10_state.md R26, R29). -/
def slotAt (stack : Vector (Option Word) stackCap) (i : Int) : Option Word :=
  if i < 0 then none else (stack[i.toNat]?).join

/-- The value `stack[i]` holds. -/
def State.slot (s : State) (i : Int) : Option Word := slotAt s.stack i

/-- The slots after `stack[i] <- v`. -/
def setSlot (stack : Vector (Option Word) stackCap) (i : Int) (v : Word) : Vector (Option Word) stackCap :=
  stack.setIfInBounds i.toNat (some v)

/-- The state after `sp <- sp + 1; stack[sp] <- v`. -/
def State.pushed (s : State) (v : Word) : State :=
  { s with sp := s.sp + 1, stack := setSlot s.stack (s.sp + 1) v }

/-- `push(v)` (20_memory.md R58): a full stack raises StackOverflow and nothing is written. -/
def push (v : Word) (s : State) : Eff State :=
  if s.sp = (stackCap : Int) - 1 then raise .stackOverflow
  else if 0 ≤ s.sp + 1 ∧ s.sp + 1 < (stackCap : Int) then .ok (s.pushed v)
  else .error (.model .badPointer)

/-- `pop()` (20_memory.md R59): an empty stack raises StackUnderflow; the slot that is read keeps its bits. -/
def pop (s : State) : Eff (Word × State) :=
  if s.sp = -1 then raise .stackUnderflow
  else
    match s.slot s.sp with
    | some v => .ok (v, { s with sp := s.sp - 1 })
    | none => .error (.model .unsetSlot)

/-! ### Output (10_state.md R44) -/

/-- `emit(line)`: one line at the end of the output record. -/
def emit (line : Line) (s : State) : State := { s with out := s.out ++ [line] }

/-! ### Taking a fatal condition (60_exceptions.md R200 to R204) -/

/-- The kind of a raised condition. -/
def FatalInfo.kind : FatalInfo → FatalKind
  | .divisionByZero _ _ => .divisionByZero
  | .invalidOpcode => .invalidOpcode
  | .invalidArgument _ => .invalidArgument
  | .stackOverflow => .stackOverflow
  | .stackUnderflow => .stackUnderflow
  | .programOverrun => .programOverrun

/-- The code of a kind (60_exceptions.md R200). -/
def FatalKind.code : FatalKind → Nat
  | .divisionByZero => 1
  | .invalidOpcode => 2
  | .invalidArgument => 3
  | .stackOverflow => 4
  | .stackUnderflow => 5
  | .programOverrun => 6

/-- The record of a condition raised by the instruction at `index` (10_state.md R45; 60_exceptions.md R200). -/
def diagOf (index : Nat) (byte : Option Byte) (info : FatalInfo) : Diag where
  kind := info.kind
  index := index
  byte := byte
  operand := match info with
    | .invalidArgument m => some m
    | _ => none
  a := match info with
    | .divisionByZero a _ => some a
    | _ => none
  b := match info with
    | .divisionByZero _ b => some b
    | _ => none

/-- Entry on a fatal condition (60_exceptions.md R202) in the state the step started in, so that everything but `mode` and `diag`
keeps its value (R204), log 13. `byte` is `none` only when the opcode could not be fetched. -/
def takeFatal (s : State) (byte : Option Byte) (info : FatalInfo) : State :=
  { s with mode := .halted .failure, diag := some (diagOf s.pc byte info) }

/-- `halt(success)` (00_scope.md R7, 41_dispatcher.md R127). -/
def haltSuccess (s : State) : State := { s with mode := .halted .success }

/-! ### Completing an instruction (41_dispatcher.md R122) -/

/-- Runs the effect of the instruction `i` whose opcode byte stands at `s.pc`. The effect sees the state after the fetch, `pc` past
the whole instruction (10_state.md R23), log 11; if it raises, the fatal condition is taken in `s` itself. -/
def complete (i : Instr) (s : State) (effect : State → Eff State) : Host.Outcome State Fault Refusal :=
  match effect { s with pc := s.pc + i.length } with
  | .ok t => .next t
  | .error (.raise info) => .next (takeFatal s (some i.opcodeByte) info)
  | .error (.model f) => .fault f

/-! ### The ports (10_state.md R40 to R45) -/

/-- `halted` (10_state.md R43). -/
def State.halted (s : State) : Bool := s.mode != .running

/-- `status` (10_state.md R34, R43): defined only while `halted` holds. -/
def State.status (s : State) : Option Nat :=
  match s.mode with
  | .running => none
  | .halted .success => some 0
  | .halted .failure => some failStatus

/-- The result of a run (41_dispatcher.md R129): the triple (status, out, diag), once the block is halted. -/
def State.result (s : State) : Option (Nat × List Line × Option Diag) :=
  match s.status with
  | none => none
  | some n => some (n, s.out, s.diag)

/-- The print stream as characters: each line followed by one line feed (45_output.md R191). -/
def State.outStream (s : State) : List Char := s.out.flatMap (fun line => line ++ [lineFeed])

end Sys2Proof.Machine
end

