-- ==== Sys2Proof/Machine/Operands.lean ====
section
/-! DEFINITION. The operand forms: the top of the stack, the two topmost values, a register pushed or written, and MOV's pair of
nibbles (30_encoding.md R72 to R74, R82). No operand is extended, scaled or shifted (R82). -/

namespace Sys2Proof.Machine

/-- The operands of a binary instruction, `(a, b)`: `b` is popped first and is the right operand (41_dispatcher.md R124). -/
def popPair (s : State) : Eff ((Word × Word) × State) := do
  let (b, s) ← pop s
  let (a, s) ← pop s
  pure ((a, b), s)

/-- `push(r[i])` (44_registers.md R172, R173). -/
def pushReg (i : Reg) (s : State) : Eff State := push (readReg s i) s

/-- `v <- pop(); r[i] <- v` (44_registers.md R170, R171). -/
def popReg (i : Reg) (s : State) : Eff State := do
  let (v, s) ← pop s
  pure (writeReg s i v)

/-- The registers MOV's nibbles name, `(source, destination)`, or `none` for the pairs that name none (30_encoding.md R78). -/
def movRegs (src dst : BitVec 4) : Option (Reg × Reg) :=
  if src = 1#4 ∧ dst = 2#4 then some (.r1, .r2)
  else if src = 2#4 ∧ dst = 1#4 then some (.r2, .r1)
  else none

/-- MOV's effect (44_registers.md R174). -/
def moveReg (src dst : BitVec 4) (s : State) : Eff State :=
  match movRegs src dst with
  | some (from_, to_) => pure (writeReg s to_ (readReg s from_))
  | none => raise (.invalidArgument (movByte src dst))

end Sys2Proof.Machine
end

