-- ==== Sys2Proof/Machine/Arithmetic.lean ====
section
/-! DEFINITION. The arithmetic unit and the instructions that use it (43_arithmetic.md R150 to R156). -/

namespace Sys2Proof.Machine

/-- `fpu(op, a, b)` (43_arithmetic.md R150): pure; DIV by `+0` or `-0` signals DivisionByZero with both operands. -/
def fpu (op : ArithOp) (a b : Word) : Eff Word :=
  match op with
  | .add => .ok (fadd a b)
  | .sub => .ok (fsub a b)
  | .mul => .ok (fmul a b)
  | .div => if isZeroDivisor b then raise (.divisionByZero a b) else .ok (fdiv a b)

/-- The shared shape of the binary instructions (43_arithmetic.md R151): both pops, then the unit, then the push. -/
def binaryEffect (op : ArithOp) (s : State) : Eff State := do
  let ((a, b), s) ← popPair s
  let r ← fpu op a b
  push r s

/-- NEG's effect (43_arithmetic.md R156). -/
def negEffect (s : State) : Eff State := do
  let (b, s) ← pop s
  push (fneg b) s

/-- ADD (R152). -/
def execAdd (s : State) : Host.Outcome State Fault Refusal := complete .add s (binaryEffect .add)

/-- SUB (R153). -/
def execSub (s : State) : Host.Outcome State Fault Refusal := complete .sub s (binaryEffect .sub)

/-- MUL (R154). -/
def execMul (s : State) : Host.Outcome State Fault Refusal := complete .mul s (binaryEffect .mul)

/-- DIV (R155). -/
def execDiv (s : State) : Host.Outcome State Fault Refusal := complete .div s (binaryEffect .div)

/-- NEG (R156). -/
def execNeg (s : State) : Host.Outcome State Fault Refusal := complete .neg s negEffect

end Sys2Proof.Machine
end

