-- ==== Sys2Proof/Machine/Constants.lean ====
section
/-! DEFINITION. The constant pushes (42_constants.md R140 to R145). The bytes of a DCONST literal are fetched by the dispatcher, so a
literal that runs past the end raises ProgramOverrun before any push (R145). -/

namespace Sys2Proof.Machine

/-- DCONST_M1 (R140): pushes -1.0. -/
def execDconstM1 (s : State) : Host.Outcome State Fault Refusal :=
  complete .dconstM1 s (push 0xBFF0000000000000#64)

/-- DCONST_0 (R141): pushes +0.0. -/
def execDconst0 (s : State) : Host.Outcome State Fault Refusal :=
  complete .dconst0 s (push 0x0000000000000000#64)

/-- DCONST_1 (R142): pushes 1.0. -/
def execDconst1 (s : State) : Host.Outcome State Fault Refusal :=
  complete .dconst1 s (push 0x3FF0000000000000#64)

/-- DCONST_2 (R143): pushes 2.0. -/
def execDconst2 (s : State) : Host.Outcome State Fault Refusal :=
  complete .dconst2 s (push 0x4000000000000000#64)

/-- DCONST (R144): pushes its literal as it is, whatever the pattern (30_encoding.md R79). -/
def execDconst (lit : Word) (s : State) : Host.Outcome State Fault Refusal :=
  complete (.dconst lit) s (push lit)

end Sys2Proof.Machine
end

