-- ==== Sys2Proof/Machine/Control.lean ====
section
/-! DEFINITION. The dispatcher's own instructions, HALT and NOP (41_dispatcher.md R127, R128), and the conditions it raises before
an instruction runs (R122, R126). -/

namespace Sys2Proof.Machine

/-- HALT (41_dispatcher.md R127): `mode <- Halted(success)`, with `pc` past the HALT byte. -/
def execHalt (s : State) : Host.Outcome State Fault Refusal :=
  complete .halt s (fun t => .ok (haltSuccess t))

/-- NOP (41_dispatcher.md R128): nothing beyond the fetch. -/
def execNop (s : State) : Host.Outcome State Fault Refusal :=
  complete .nop s (fun t => .ok t)

/-- The bytes the dispatcher can read at `pc`: as many as the longest instruction has, or up to the end of the program. -/
def fetchBytes (s : State) : List Byte := Memory.window s.prog s.pc maxLength

/-- The condition raised where the bytes at `pc` are no instruction: the opcode fetch runs past the end (41_dispatcher.md R122),
the byte is not assigned (R126), or the operand bytes run past the end (20_memory.md R53, 42_constants.md R145). -/
def takeFetchError (s : State) : DecodeError → State
  | .noByte => takeFatal s none .programOverrun
  | .invalidOpcode b => takeFatal s (some b) .invalidOpcode
  | .truncated b => takeFatal s (some b) .programOverrun

end Sys2Proof.Machine
end

