-- ==== Sys2Proof/Machine/Format.lean ====
section
/-! DEFINITION. The decimal text PRINT emits: `fmt6` (45_output.md R191 to R194). -/

namespace Sys2Proof.Machine

/-- The character of a decimal digit below 10. -/
def digitChar (d : Nat) : Char := Char.ofNat (48 + d)

/-- The base-10 digits of `n`, at most `fuel` of them, most significant first. -/
def decimalDigits : Nat → Nat → List Char
  | 0, _ => []
  | fuel + 1, n => if n < 10 then [digitChar n] else decimalDigits fuel (n / 10) ++ [digitChar (n % 10)]

/-- `decimal(ip)` (R191): no leading zeros, and "0" for 0. A number has no more decimal digits than binary ones. -/
def decimal (n : Nat) : List Char := decimalDigits (Nat.log2 n + 1) n

/-- `pad6(fp)` (R191): exactly 6 digits. -/
def pad6 (n : Nat) : List Char :=
  [digitChar (n / 100000 % 10), digitChar (n / 10000 % 10), digitChar (n / 1000 % 10),
   digitChar (n / 100 % 10), digitChar (n / 10 % 10), digitChar (n % 10)]

/-- `q = roundInt(|x| * 10^6)` for a finite `x`, from its exact value (R191, R194). -/
def roundedMillionths (tie : TieRule) (x : Word) : Nat :=
  roundQuot tie (magnitude x * 1000000) unitsPerOne

/-- The sign text: `-` whenever the sign bit is set (R191). -/
def signText (s : Bool) : List Char := if s then ['-'] else []

/-- `fmt6` under any tie rule (R191 to R193). -/
def fmt6With (tie : TieRule) (x : Word) : Line :=
  if isNaN x then printNanText (signBit x)
  else if isInf x then printInfText (signBit x)
  else
    let q := roundedMillionths tie x
    signText (signBit x) ++ decimal (q / 1000000) ++ ['.'] ++ pad6 (q % 1000000)

/-- `fmt6` (R191). -/
def fmt6 (x : Word) : Line := fmt6With printTie x

end Sys2Proof.Machine
end

