-- ==== Sys2Proof/Machine/Output.lean ====
section
/-! DEFINITION. PRINT (45_output.md R190). -/

namespace Sys2Proof.Machine

/-- PRINT's effect (R190): nothing is emitted when the pop raises, and the value is not pushed back. -/
def printEffect (s : State) : Eff State := do
  let (x, s) ← pop s
  pure (emit (fmt6 x) s)

/-- PRINT (R190). -/
def execPrint (s : State) : Host.Outcome State Fault Refusal := complete .print s printEffect

end Sys2Proof.Machine
end

