-- ==== Sys2Proof/Machine/Registers.lean ====
section
/-! DEFINITION. The transfers between the stack and the registers (44_registers.md R170 to R174). Values move by copy, bit for bit
(20_memory.md R60). -/

namespace Sys2Proof.Machine

/-- ST1 (R170). -/
def execSt1 (s : State) : Host.Outcome State Fault Refusal := complete .st1 s (popReg .r1)

/-- ST2 (R171). -/
def execSt2 (s : State) : Host.Outcome State Fault Refusal := complete .st2 s (popReg .r2)

/-- LD1 (R172). -/
def execLd1 (s : State) : Host.Outcome State Fault Refusal := complete .ld1 s (pushReg .r1)

/-- LD2 (R173): the register is `LD2_SOURCE`. -/
def execLd2 (s : State) : Host.Outcome State Fault Refusal := complete .ld2 s (pushReg ld2Source)

/-- MOV (R174): an operand that is not 0x12 or 0x21 raises InvalidArgument. -/
def execMov (src dst : BitVec 4) (s : State) : Host.Outcome State Fault Refusal :=
  complete (.mov src dst) s (moveReg src dst)

end Sys2Proof.Machine
end

