-- ==== Sys2Proof/Machine/Dispatch.lean ====
section
/-! DEFINITION. One arm per constructor of Instr (41_dispatcher.md R122, R123). -/

namespace Sys2Proof.Machine

def exec (i : Instr) (s : State) : Host.Outcome State Fault Refusal :=
  match i with
  | .halt => Sys2Proof.Machine.execHalt s
  | .nop => Sys2Proof.Machine.execNop s
  | .dconstM1 => Sys2Proof.Machine.execDconstM1 s
  | .dconst0 => Sys2Proof.Machine.execDconst0 s
  | .dconst1 => Sys2Proof.Machine.execDconst1 s
  | .dconst2 => Sys2Proof.Machine.execDconst2 s
  | .dconst lit => Sys2Proof.Machine.execDconst lit s
  | .add => Sys2Proof.Machine.execAdd s
  | .sub => Sys2Proof.Machine.execSub s
  | .mul => Sys2Proof.Machine.execMul s
  | .div => Sys2Proof.Machine.execDiv s
  | .neg => Sys2Proof.Machine.execNeg s
  | .st1 => Sys2Proof.Machine.execSt1 s
  | .st2 => Sys2Proof.Machine.execSt2 s
  | .ld1 => Sys2Proof.Machine.execLd1 s
  | .ld2 => Sys2Proof.Machine.execLd2 s
  | .print => Sys2Proof.Machine.execPrint s
  | .mov src dst => Sys2Proof.Machine.execMov src dst s

end Sys2Proof.Machine
end

