-- ==== Sys2Proof/Machine/Step.lean ====
section
/-! DEFINITION. The step of the dispatcher (41_dispatcher.md R120 to R122). -/

namespace Sys2Proof.Machine

/-- One step. In `Halted` no step exists (R121), log 12. While `Running`, the bytes at `pc` are decoded and the instruction runs;
bytes that are no instruction raise the condition of `takeFetchError`. -/
def step (s : State) : Host.Outcome State Fault Refusal :=
  match s.mode with
  | .halted _ => .fault .halted
  | .running =>
    match decode (fetchBytes s) with
    | .error e => .next (takeFetchError s e)
    | .ok i => exec i s

/-- `s` with the instruction of an opcode-table word placed in the program store where the next step fetches, and the dispatcher
running, log 14. -/
def State.withFetchWord (s : State) (nbits w : Nat) : State :=
  { s with mode := .running, prog := Memory.storeBytes s.prog s.pc (tableBytes nbits w) }

end Sys2Proof.Machine
end

