-- ==== Sys2Proof/Machine/Text.lean ====
section
/-! DEFINITION. The textual syntax of 30_encoding.md R86 and R87, for writing test programs: notation only, with no meaning of its
own (D21). A line is rendered as text, and a list of lines is put together as bytes. There are no pseudo-instructions (R87). -/

namespace Sys2Proof.Machine

/-- A line of a test program: an instruction, or `.byte 0xNN` as it is (R86, R87). -/
inductive AsmLine where
  | instr (i : Instr)
  | byte (b : Byte)
  deriving DecidableEq, Repr

/-- The bytes of a line. -/
def AsmLine.bytes : AsmLine → List Byte
  | .instr i => encode i
  | .byte b => [b]

/-- The bytes of a program, the lines in index order. -/
def assemble (lines : List AsmLine) : List Byte := lines.flatMap AsmLine.bytes

/-- The mnemonic, exactly as 30_encoding.md R75 spells it. -/
def mnemonic : Opcode → String
  | .HALT => "HALT"
  | .NOP => "NOP"
  | .DCONST_M1 => "DCONST_M1"
  | .DCONST_0 => "DCONST_0"
  | .DCONST_1 => "DCONST_1"
  | .DCONST_2 => "DCONST_2"
  | .DCONST => "DCONST"
  | .ADD => "ADD"
  | .SUB => "SUB"
  | .MUL => "MUL"
  | .DIV => "DIV"
  | .NEG => "NEG"
  | .ST1 => "ST1"
  | .ST2 => "ST2"
  | .LD1 => "LD1"
  | .LD2 => "LD2"
  | .PRINT => "PRINT"
  | .MOV => "MOV"

/-- A hexadecimal digit, capital. -/
def hexChar (d : Nat) : Char := if d < 10 then Char.ofNat (48 + d) else Char.ofNat (55 + d)

/-- `0x` and the `k` low hexadecimal digits of `n`, most significant first. -/
def hexText (k n : Nat) : String :=
  "0x" ++ String.ofList ((List.range k).reverse.map (fun j => hexChar (n / 16 ^ j % 16)))

/-- One line of R86. A MOV that names no legal pair is written with its raw operand byte. -/
def AsmLine.text : AsmLine → String
  | .byte b => ".byte " ++ hexText 2 b.toNat
  | .instr (.dconst lit) => "DCONST bits(" ++ hexText 16 lit.toNat ++ ")"
  | .instr (.mov src dst) =>
    if src = 1#4 ∧ dst = 2#4 then "MOV r1, r2"
    else if src = 2#4 ∧ dst = 1#4 then "MOV r2, r1"
    else "MOV byte(" ++ hexText 2 (movByte src dst).toNat ++ ")"
  | .instr i => mnemonic i.opcode

end Sys2Proof.Machine
end

