-- ==== Sys2Proof/Safety.lean ====
section
/-! DEFINITION. The terms the statements are written in: the invariant of the block, what a completed or a failed step keeps, the
exact values of patterns and correct rounding, the first failing check, the static check of a program, and agreement up to NaNs. -/

namespace Sys2Proof

open Sys2Proof.Machine

/-! ### The invariant -/

/-- "`stack_pointer` must stay within `[-1, capacity-1]` at all times" (10_state.md R28). -/
def SpInRange (s : State) : Prop := -1 ≤ s.sp ∧ s.sp ≤ (stackCap : Int) - 1

/-- "Slots at index `sp` or below hold the values pushed" (10_state.md R29). -/
def SlotsHoldValues (s : State) : Prop := ∀ i : Int, 0 ≤ i → i ≤ s.sp → ∃ v, s.slot i = some v

/-- The diagnostic is written on every failure and never otherwise (10_state.md R45, 60_exceptions.md R205). -/
def DiagExactlyOnFailure (s : State) : Prop := s.diag ≠ none ↔ s.mode = .halted .failure

/-- The invariant of the block. -/
structure BlockInv (s : State) : Prop where
  spInRange : SpInRange s
  slotsHoldValues : SlotsHoldValues s
  diagExactlyOnFailure : DiagExactlyOnFailure s
  programCanonical : Memory.wf s.prog = true

/-! ### What a step keeps -/

/-- What every completed instruction other than HALT leaves alone, and how it moves `pc`: by its length (10_state.md R23). -/
structure Advanced (s t : State) (length : Nat) : Prop where
  pc : t.pc = s.pc + length
  mode : t.mode = s.mode
  diag : t.diag = s.diag
  programByte : ∀ i, t.programByte i = s.programByte i
  programLength : t.programLength = s.programLength

/-- Every slot but `k` holds what it held. -/
def SlotsKeptBut (k : Int) (s t : State) : Prop := ∀ i, i ≠ k → t.slot i = s.slot i

/-- Every slot holds what it held. -/
def SlotsKept (s t : State) : Prop := ∀ i, t.slot i = s.slot i

/-- The state after a failing step that started in `s`: the record written, the mode `Halted(failure)`, the rest as it was
(60_exceptions.md R202, R204). -/
def failedWith (s : State) (kind : FatalKind) (byte operand : Option Byte) (a b : Option Word) : State :=
  { s with
    mode := .halted .failure
    diag := some { kind := kind, index := s.pc, byte := byte, operand := operand, a := a, b := b } }

/-! ### Exact values and correct rounding -/

/-- The value of a finite pattern (40_numeric_decoder.md R100), as an exact rational. -/
def value (w : Word) : ℚ :=
  (if signBit w then -1 else 1) *
    (if expField w = 0 then (fracField w : ℚ) * (2 : ℚ) ^ (-1074 : ℤ)
     else ((2 : ℚ) ^ 52 + (fracField w : ℚ)) * (2 : ℚ) ^ ((expField w : ℤ) - 1075))

/-- The magnitude from which rounding to nearest gives an infinity: halfway past the largest finite binary64. -/
def overflowBound : ℚ := (2 : ℚ) ^ (1024 : ℕ) - (2 : ℚ) ^ (970 : ℕ)

/-- `r` is the exact number `x` correctly rounded to binary64, to nearest with ties to even (40_numeric_decoder.md R104 to R106,
R110): an infinity of the sign of `x` from the overflow bound on; otherwise finite, no finite pattern is nearer, a tie falls on the
pattern whose last bit is 0, and a result for a non-zero `x` has the sign of `x`. -/
def CorrectlyRounded (x : ℚ) (r : Word) : Prop :=
  if overflowBound ≤ |x| then isInf r = true ∧ signBit r = decide (x < 0)
  else
    isFinite r = true ∧
    (∀ w, isFinite w = true → |value r - x| ≤ |value w - x|) ∧
    (∀ w, isFinite w = true → value w ≠ value r → |value w - x| = |value r - x| → r.getLsbD 0 = false) ∧
    (x ≠ 0 → signBit r = decide (x < 0))

/-- The exact result of an operation on finite operands. -/
def exactResult : ArithOp → ℚ → ℚ → ℚ
  | .add, x, y => x + y
  | .sub, x, y => x - y
  | .mul, x, y => x * y
  | .div, x, y => x / y

/-- The operation is invalid on numbers (40_numeric_decoder.md R107). -/
def InvalidOperation : ArithOp → Word → Word → Prop
  | .add, a, b => isInf a = true ∧ isInf b = true ∧ signBit a ≠ signBit b
  | .sub, a, b => isInf a = true ∧ isInf b = true ∧ signBit a = signBit b
  | .mul, a, b => (isZero a = true ∧ isInf b = true) ∨ (isInf a = true ∧ isZero b = true)
  | .div, a, b => isInf a = true ∧ isInf b = true

/-- `n` is the natural number nearest to `x`, a tie broken to even (45_output.md R194). -/
def NearestEven (x : ℚ) (n : ℕ) : Prop := |(n : ℚ) - x| < 1 / 2 ∨ (|(n : ℚ) - x| = 1 / 2 ∧ n % 2 = 0)

/-- A list of decimal digits read as a number, most significant first. -/
def readDecimal (cs : List Char) : ℕ := cs.foldl (fun n c => 10 * n + (c.toNat - 48)) 0

/-- The characters are decimal digits. -/
def AllDigits (cs : List Char) : Prop := ∀ c ∈ cs, 48 ≤ c.toNat ∧ c.toNat ≤ 57

/-! ### Sizes of the instructions on the stack, and the first failing check -/

/-- How many values an instruction pops. -/
def pops : Instr → Nat
  | .add | .sub | .mul | .div => 2
  | .neg | .st1 | .st2 | .print => 1
  | .halt | .nop | .dconstM1 | .dconst0 | .dconst1 | .dconst2 | .dconst _ | .ld1 | .ld2 | .mov _ _ => 0

/-- How many values an instruction pushes. -/
def pushes : Instr → Nat
  | .add | .sub | .mul | .div | .neg => 1
  | .dconstM1 | .dconst0 | .dconst1 | .dconst2 | .dconst _ | .ld1 | .ld2 => 1
  | .halt | .nop | .st1 | .st2 | .print | .mov _ _ => 0

/-- The first failing check of an instruction that has been fetched, or `none` (60_exceptions.md R206): the pops, then the zero test,
then the push; and MOV's operand. -/
def firstFailureOf (i : Instr) (s : State) : Option FatalKind :=
  if i.wellFormed = false then some .invalidArgument
  else if s.sp + 1 < (pops i : Int) then some .stackUnderflow
  else if i = .div ∧ (s.slot s.sp = some 0x0000000000000000#64 ∨ s.slot s.sp = some 0x8000000000000000#64) then
    some .divisionByZero
  else if (stackCap : Int) < s.sp + 1 - (pops i : Int) + (pushes i : Int) then some .stackOverflow
  else none

/-- The first failing check of a step (60_exceptions.md R206): the opcode fetch, the opcode, the operand bytes, then the instruction's
own. -/
def firstFailure (s : State) : Option FatalKind :=
  match decode (fetchBytes s) with
  | .error .noByte => some .programOverrun
  | .error (.invalidOpcode _) => some .invalidOpcode
  | .error (.truncated _) => some .programOverrun
  | .ok i => firstFailureOf i s

/-! ### The static check of a program (70_reset_and_hazards.md R233) -/

/-- Conditions (a) to (d) and (f) of R233 along the linear decode from `pc` with `depth` values on the stack, read off the bytes
alone: every opcode assigned, every operand in the program, every MOV legal, the depth in bounds, and a HALT reached within `fuel`
instructions. -/
def staticCheck : Nat → Memory → Nat → Nat → Bool
  | 0, _, _, _ => false
  | fuel + 1, m, pc, depth =>
    match decode (Memory.window m pc maxLength) with
    | .error _ => false
    | .ok .halt => true
    | .ok i =>
      i.wellFormed && decide (pops i ≤ depth) && decide (depth - pops i + pushes i ≤ stackCap) &&
        staticCheck fuel m (pc + i.length) (depth - pops i + pushes i)

/-- The static check of the rest of a run from `s`. -/
def StaticallySound (s : State) : Prop :=
  staticCheck (s.programLength + 1) s.prog s.pc (s.sp + 1).toNat = true

/-- The run from `s` is over after `k` steps, in `t`. -/
def RunEndsIn (s : State) (k : Nat) (t : State) : Prop :=
  Host.Core.run core k s = .next t ∧ t.halted = true

/-! ### Agreement up to NaNs (70_reset_and_hazards.md R234) -/

/-- The same pattern, or a NaN on both sides. -/
def SameValue (x y : Word) : Prop := x = y ∨ (isNaN x = true ∧ isNaN y = true)

/-- Both absent, or the same value up to NaNs. -/
def SameOptional : Option Word → Option Word → Prop
  | none, none => True
  | some x, some y => SameValue x y
  | _, _ => False

/-- The same line, or the text of a NaN on both sides. -/
def SameLine (x y : Line) : Prop :=
  x = y ∨ ((x = printNanText true ∨ x = printNanText false) ∧ (y = printNanText true ∨ y = printNanText false))

/-- The same record but for the NaN bits of DIV's operands. -/
def SameDiag : Option Diag → Option Diag → Prop
  | none, none => True
  | some d, some e =>
    d.kind = e.kind ∧ d.index = e.index ∧ d.byte = e.byte ∧ d.operand = e.operand ∧ SameOptional d.a e.a ∧ SameOptional d.b e.b
  | _, _ => False

/-- Two states that differ at most in NaN bits and in the `nan`/`-nan` text of emitted lines. -/
structure SameUpToNaN (s t : State) : Prop where
  mode : s.mode = t.mode
  pc : s.pc = t.pc
  sp : s.sp = t.sp
  prog : s.prog = t.prog
  r1 : SameValue s.r1 t.r1
  r2 : SameValue s.r2 t.r2
  slot : ∀ i, SameOptional (s.slot i) (t.slot i)
  out : List.Forall₂ SameLine s.out t.out
  diag : SameDiag s.diag t.diag

end Sys2Proof
end

