-- ==== Sys2Proof/Certificates/Slice0/Obligations.lean ====
section
/-! DEFINITION. The statements about the block, from the numbered rules of spec/. Each docstring names the rule it formalises; a
clause that rests on the model's own choice names the log entry. -/

section Statements

open Sys2Proof Sys2Proof.Machine

/-! ### Encoding and the byte decoder -/

/-- Words written out from 30_encoding.md R71 and R75, one for each format, decode to the instructions they stand for; `0x12` and
`0xFF` decode to none. The opcode bytes are the spec's D1, log 2. -/
def Obligations.DecodeReadsTheSpecsWords : Prop :=
  decode [0x00#8] = .ok .halt ∧
  decode [0x07#8, 0xFF#8] = .ok .add ∧
  decode [0x0F#8] = .ok .ld2 ∧
  decode [0x10#8] = .ok .print ∧
  decode [0x11#8, 0x12#8] = .ok (.mov 1#4 2#4) ∧
  decode [0x11#8, 0xF3#8] = .ok (.mov 15#4 3#4) ∧
  decode [0x06#8, 0x40#8, 0x0C#8, 0x00#8, 0x00#8, 0x00#8, 0x00#8, 0x00#8, 0x00#8] = .ok (.dconst 0x400C000000000000#64) ∧
  decode [0x06#8, 0x40#8, 0x0C#8, 0x00#8] = .error (.truncated 0x06#8) ∧
  decode [0x12#8, 0x00#8] = .error (.invalidOpcode 0x12#8) ∧
  decode [0xFF#8] = .error (.invalidOpcode 0xFF#8) ∧
  decode [] = .error .noByte

/-- Decode and encode agree, for every instruction with every operand (an illegal MOV pair among them), whatever follows it in the
program, under every legal opcode map and both wire orders (30_encoding.md R76, R83); this block's map is legal. -/
def Obligations.DecodeOfEncodeIsTheInstruction : Prop :=
  opcodeMap.Legal ∧
  ∀ (m : OpcodeMap) (o : WireOrder) (i : Instr) (rest : List Byte),
    m.Legal → decodeWith m o (encodeWith m o i ++ rest) = .ok i

/-- Each decoded instruction is read from exactly its encoding: no two byte sequences of one length decode to the same instruction,
and no operand bit is dropped (30_encoding.md R71 to R74). -/
def Obligations.DecodedBytesAreItsEncoding : Prop :=
  ∀ (m : OpcodeMap) (o : WireOrder) (bytes : List Byte) (i : Instr),
    decodeWith m o bytes = .ok i → ∃ rest, bytes = encodeWith m o i ++ rest ∧ (encodeWith m o i).length = i.length

/-- 30_encoding.md R77 and 41_dispatcher.md R126: exactly the 238 bytes from `0x12` on are no opcode, and fetching one raises
InvalidOpcode with that byte, nothing else changed. The spec's decisions it rests on: the assigned bytes are D1, log 2; that the
rest is unchanged is D14 (60_exceptions.md R204), log 13; the record's `index` is D12, log 15. -/
def Obligations.UnassignedBytesRaiseInvalidOpcode : Prop :=
  (∀ (b : Byte) (rest : List Byte), decode (b :: rest) = .error (.invalidOpcode b) ↔ 0x12 ≤ b.toNat) ∧
  ∀ (s : State) (b : Byte), s.mode = .running → s.programByte s.pc = some b → 0x12 ≤ b.toNat →
    step s = .next (failedWith s .invalidOpcode (some b) none none none)

/-- 40_numeric_decoder.md R101: big-endian puts `B0` in bits 63:56 down to `B7` in bits 7:0, little-endian the other way round. -/
def Obligations.ByteDecoderPlacesEachByte : Prop :=
  (∀ b0 b1 b2 b3 b4 b5 b6 b7 : Byte,
    let w := decode64 .big b0 b1 b2 b3 b4 b5 b6 b7
    w.extractLsb' 56 8 = b0 ∧ w.extractLsb' 48 8 = b1 ∧ w.extractLsb' 40 8 = b2 ∧ w.extractLsb' 32 8 = b3 ∧
    w.extractLsb' 24 8 = b4 ∧ w.extractLsb' 16 8 = b5 ∧ w.extractLsb' 8 8 = b6 ∧ w.extractLsb' 0 8 = b7) ∧
  ∀ b0 b1 b2 b3 b4 b5 b6 b7 : Byte,
    decode64 .little b0 b1 b2 b3 b4 b5 b6 b7 = decode64 .big b7 b6 b5 b4 b3 b2 b1 b0

/-- 40_numeric_decoder.md R103: the byte decoder and `encode64` are inverse, under both wire orders. -/
def Obligations.ByteDecoderIsInvertible : Prop :=
  (∀ (o : WireOrder) (b0 b1 b2 b3 b4 b5 b6 b7 : Byte),
    encode64 o (decode64 o b0 b1 b2 b3 b4 b5 b6 b7) = [b0, b1, b2, b3, b4, b5, b6, b7]) ∧
  ∀ (o : WireOrder) (w : Word), ∃ b0 b1 b2 b3 b4 b5 b6 b7 : Byte,
    encode64 o w = [b0, b1, b2, b3, b4, b5, b6, b7] ∧ decode64 o b0 b1 b2 b3 b4 b5 b6 b7 = w

/-! ### The step -/

/-- When the bytes at `pc` decode to an instruction, the step of a running block is that instruction's `exec` at the same state;
moving past the instruction's bytes is part of `exec` (41_dispatcher.md R122), log 11. -/
def Obligations.StepRunsTheDecodedInstruction : Prop :=
  ∀ (s : State) (i : Instr), s.mode = .running → decode (fetchBytes s) = .ok i → step s = exec i s

/-- The dispatcher reads the bytes at `pc`: where an instruction's encoding stands in the program at `pc`, the step runs it. -/
def Obligations.StepRunsTheBytesAtPc : Prop :=
  ∀ (s : State) (i : Instr), s.mode = .running →
    (∀ k, k < i.length → s.programByte (s.pc + k) = (encode i)[k]?) → step s = exec i s

/-- 20_memory.md R53 and 42_constants.md R145: a read inside the program returns its bytes and one past the end returns nothing; the
opcode fetch, MOV's operand and DCONST's literal raise ProgramOverrun when they run past the end, with nothing else changed. The
model follows the spec's decisions here: that everything else stays as before a failing step is the spec's D14 (60_exceptions.md
R204), log 13, and the record's `index` and `byte` are the spec's D12, log 15. -/
def Obligations.ReadsPastTheEndRaiseProgramOverrun : Prop :=
  (∀ (m : Memory) (addr n : Nat), Memory.dense m = true → addr + n ≤ Memory.extent m →
    ∃ bytes, Memory.memRead m addr n = some bytes ∧ bytes.length = n ∧
      ∀ k, k < n → Memory.read m (addr + k) = bytes[k]?) ∧
  (∀ (m : Memory) (addr n : Nat), Memory.extent m < addr + n → Memory.memRead m addr n = none) ∧
  (∀ s : State, s.mode = .running → s.programLength < s.pc + 1 →
    step s = .next (failedWith s .programOverrun none none none none)) ∧
  (∀ s : State, s.mode = .running → s.programByte s.pc = some (opcodeMap .MOV) → s.programLength < s.pc + 2 →
    step s = .next (failedWith s .programOverrun (some (opcodeMap .MOV)) none none none)) ∧
  ∀ s : State, s.mode = .running → s.programByte s.pc = some (opcodeMap .DCONST) → s.programLength < s.pc + 9 →
    step s = .next (failedWith s .programOverrun (some (opcodeMap .DCONST)) none none none)

/-- In `Halted` no step exists (41_dispatcher.md R121). That the model answers its fault `halted` there is its own choice, log 12. -/
def Obligations.HaltedBlockHasNoStep : Prop :=
  ∀ (s : State) (c : HaltCode), s.mode = .halted c → step s = .fault .halted

/-- 41_dispatcher.md R121: from `Running`, HALT leads to `Halted(success)`, a fatal condition to `Halted(failure)`, any other
instruction to `Running`; from `Halted` there is no transition. -/
def Obligations.ModeFollowsTheTransitionTable : Prop :=
  (∀ s, BlockInv s → s.mode = .running →
    ∃ t, step s = .next t ∧
      (decode (fetchBytes s) = .ok .halt → t.mode = .halted .success) ∧
      (firstFailure s ≠ none → t.mode = .halted .failure) ∧
      (decode (fetchBytes s) ≠ .ok .halt → firstFailure s = none → t.mode = .running)) ∧
  ∀ s t, s.mode ≠ .running → step s ≠ .next t

/-- 60_exceptions.md R206: a step raises the first check that fails, in the order fetch, opcode, operand bytes, pops, zero test,
push, and it raises nothing when none fails. The order is the spec's D13; that `-0` counts as a zero divisor is D10. -/
def Obligations.StepRaisesTheFirstFailingCheck : Prop :=
  ∀ s, BlockInv s → s.mode = .running →
    ∃ t, step s = .next t ∧ t.diag.map Diag.kind = firstFailure s ∧ (firstFailure s = none ↔ t.mode ≠ .halted .failure)

/-- 60_exceptions.md R202 and R204: after a failing step the record is written, with the index of the failing instruction, the
status is `FAIL_STATUS`, and `pc`, `sp`, every slot, `r1`, `r2`, `out` and the program are as at the start of the step. Precision is
the spec's D14, log 13; the record's `index` is D12, log 15; the number FAIL_STATUS is D4, log 5. -/
def Obligations.FailuresArePrecise : Prop :=
  ∀ s t, s.mode = .running → step s = .next t → t.mode = .halted .failure →
    t.status = some failStatus ∧ ∃ kind byte operand a b, t = failedWith s kind byte operand a b

/-- 60_exceptions.md R200: the codes of the six kinds, which instruction raises each, and the fields each fills. The spec's
decisions it rests on: the codes and the added fields are D12, log 15; that the unassigned bytes begin at `0x12` is D1, log 2; that
`-0` counts as a zero divisor is D10 (40_numeric_decoder.md R112); which kind a step with two faults records is D13
(60_exceptions.md R206). -/
def Obligations.DiagnosticFieldsFollowTheKind : Prop :=
  [FatalKind.divisionByZero, .invalidOpcode, .invalidArgument, .stackOverflow, .stackUnderflow, .programOverrun].map FatalKind.code =
    [1, 2, 3, 4, 5, 6] ∧
  ∀ s t d, BlockInv s → s.mode = .running → step s = .next t → t.diag = some d →
    d.index = s.pc ∧
    (d.byte = s.programByte s.pc) ∧
    match d.kind with
    | .divisionByZero =>
      decode (fetchBytes s) = .ok .div ∧ d.operand = none ∧ d.a = s.slot (s.sp - 1) ∧ d.b = s.slot s.sp ∧
        (d.b = some 0x0000000000000000#64 ∨ d.b = some 0x8000000000000000#64)
    | .invalidOpcode =>
      (∃ b, d.byte = some b ∧ 0x12 ≤ b.toNat) ∧ d.operand = none ∧ d.a = none ∧ d.b = none
    | .invalidArgument =>
      d.byte = some (opcodeMap .MOV) ∧ d.operand = s.programByte (s.pc + 1) ∧ d.operand ≠ some 0x12#8 ∧ d.operand ≠ some 0x21#8 ∧
        d.a = none ∧ d.b = none
    | .stackOverflow =>
      (∃ i, decode (fetchBytes s) = .ok i ∧
        (i = .dconstM1 ∨ i = .dconst0 ∨ i = .dconst1 ∨ i = .dconst2 ∨ (∃ lit, i = .dconst lit) ∨ i = .ld1 ∨ i = .ld2)) ∧
        s.sp = (stackCap : Int) - 1 ∧ d.operand = none ∧ d.a = none ∧ d.b = none
    | .stackUnderflow =>
      (∃ i, decode (fetchBytes s) = .ok i ∧
        (((i = .neg ∨ i = .st1 ∨ i = .st2 ∨ i = .print) ∧ s.sp = -1) ∨
          ((i = .add ∨ i = .sub ∨ i = .mul ∨ i = .div) ∧ s.sp < 1))) ∧
        d.operand = none ∧ d.a = none ∧ d.b = none
    | .programOverrun =>
      (d.byte = none ∨ (d.byte = some (opcodeMap .MOV) ∧ s.programByte (s.pc + 1) = none) ∨
        (d.byte = some (opcodeMap .DCONST) ∧ ∃ k, k < 8 ∧ s.programByte (s.pc + 1 + k) = none)) ∧
        d.operand = none ∧ d.a = none ∧ d.b = none

/-! ### What each instruction does -/

/-- 41_dispatcher.md R127: HALT is its opcode byte alone; it ends the run with success, `pc` one past it, everything else as it was,
whatever is on the stack, and no fault; the status is 0. -/
def Obligations.HaltEndsTheRunWithSuccess : Prop :=
  encode .halt = [opcodeMap .HALT] ∧
  ∀ s : State, ∃ t, exec .halt s = .next t ∧ t = { s with mode := .halted .success, pc := s.pc + 1 } ∧ t.status = some 0

/-- 41_dispatcher.md R128: NOP is its opcode byte alone; it only moves `pc` past it; at the last index the next step raises
ProgramOverrun. The model follows the spec's decisions in that last clause: that everything else stays as before the failing step is
the spec's D14 (60_exceptions.md R204), log 13, and the record's `index` and `byte` are the spec's D12, log 15. -/
def Obligations.NopOnlyAdvances : Prop :=
  encode .nop = [opcodeMap .NOP] ∧
  ∀ s : State, ∃ t, exec .nop s = .next t ∧ t = { s with pc := s.pc + 1 } ∧
    (s.mode = .running → s.programLength = s.pc + 1 →
      step t = .next (failedWith t .programOverrun none none none none))

/-- 42_constants.md R140 to R143 (and DCONST with its literal decoded): the value is pushed bit for bit and nothing else changes; a
full stack raises StackOverflow. That DCONST_0 pushes the positive zero is the spec's own reading (D17), log 17. The model follows
the spec's decisions here: that everything else stays as before a failing step is the spec's D14 (60_exceptions.md R204), log 13,
and the record's `index` and `byte` are the spec's D12, log 15. -/
def Obligations.ConstantsPushTheirPattern : Prop :=
  ∀ (s : State) (i : Instr) (v : Word),
    ((i = .dconstM1 ∧ v = 0xBFF0000000000000#64) ∨ (i = .dconst0 ∧ v = 0x0000000000000000#64) ∨
      (i = .dconst1 ∧ v = 0x3FF0000000000000#64) ∨ (i = .dconst2 ∧ v = 0x4000000000000000#64) ∨ i = .dconst v) →
    (-1 ≤ s.sp → s.sp < (stackCap : Int) - 1 →
      ∃ t, exec i s = .next t ∧ Advanced s t i.length ∧ t.sp = s.sp + 1 ∧ t.slot (s.sp + 1) = some v ∧
        SlotsKeptBut (s.sp + 1) s t ∧ t.r1 = s.r1 ∧ t.r2 = s.r2 ∧ t.out = s.out) ∧
    (s.sp = (stackCap : Int) - 1 →
      exec i s = .next (failedWith s .stackOverflow (some i.opcodeByte) none none none))

/-- 42_constants.md R144: the step at a DCONST pushes the pattern `decode64` makes of the 8 bytes after it, whatever they are, and
moves `pc` by 9; a literal past the end raises ProgramOverrun, full stack or not, and a full stack raises StackOverflow. The model
follows the spec's decisions here: that everything else stays as before a failing step is the spec's D14 (60_exceptions.md R204),
log 13, the record's `index` and `byte` are the spec's D12, log 15, and the literal read before the push is D13 (42_constants.md
R145). -/
def Obligations.DconstPushesItsLiteral : Prop :=
  ∀ s : State, s.mode = .running → s.programByte s.pc = some (opcodeMap .DCONST) →
    (∀ b0 b1 b2 b3 b4 b5 b6 b7 : Byte,
      s.programByte (s.pc + 1) = some b0 → s.programByte (s.pc + 2) = some b1 → s.programByte (s.pc + 3) = some b2 →
      s.programByte (s.pc + 4) = some b3 → s.programByte (s.pc + 5) = some b4 → s.programByte (s.pc + 6) = some b5 →
      s.programByte (s.pc + 7) = some b6 → s.programByte (s.pc + 8) = some b7 →
      (-1 ≤ s.sp → s.sp < (stackCap : Int) - 1 →
        ∃ t, step s = .next t ∧ Advanced s t 9 ∧ t.sp = s.sp + 1 ∧
          t.slot (s.sp + 1) = some (decode64 wireOrder b0 b1 b2 b3 b4 b5 b6 b7) ∧
          SlotsKeptBut (s.sp + 1) s t ∧ t.r1 = s.r1 ∧ t.r2 = s.r2 ∧ t.out = s.out) ∧
      (s.sp = (stackCap : Int) - 1 →
        step s = .next (failedWith s .stackOverflow (some (opcodeMap .DCONST)) none none none))) ∧
    (s.programLength < s.pc + 9 →
      step s = .next (failedWith s .programOverrun (some (opcodeMap .DCONST)) none none none))

/-- 44_registers.md R172 and R173: LD1 pushes `r1` and LD2 pushes `r2` (`LD2_SOURCE` = 2, the spec's D3, log 4), the registers kept;
a full stack raises StackOverflow. The model follows the spec's decisions here: that everything else stays as before a failing step
is the spec's D14 (60_exceptions.md R204), log 13, and the record's `index` and `byte` are the spec's D12, log 15. -/
def Obligations.LoadsPushTheRegister : Prop :=
  ∀ (s : State) (i : Instr) (v : Word), ((i = .ld1 ∧ v = s.r1) ∨ (i = .ld2 ∧ v = s.r2)) →
    (-1 ≤ s.sp → s.sp < (stackCap : Int) - 1 →
      ∃ t, exec i s = .next t ∧ Advanced s t 1 ∧ t.sp = s.sp + 1 ∧ t.slot (s.sp + 1) = some v ∧
        SlotsKeptBut (s.sp + 1) s t ∧ t.r1 = s.r1 ∧ t.r2 = s.r2 ∧ t.out = s.out) ∧
    (s.sp = (stackCap : Int) - 1 →
      exec i s = .next (failedWith s .stackOverflow (some i.opcodeByte) none none none))

/-- 41_dispatcher.md R124, for the four binary instructions (DIV by anything but a zero): the top of the stack is the right operand `b`,
the value below it the left operand `a`; both are popped and `a op b` is pushed, so the result stands in `a`'s slot. Everything else
is kept. -/
def Obligations.BinaryOperationsTakeTheTopOnTheRight : Prop :=
  ∀ (s : State) (i : Instr) (f : Word → Word → Word) (a b : Word),
    ((i = .add ∧ f = fadd) ∨ (i = .sub ∧ f = fsub) ∨ (i = .mul ∧ f = fmul) ∨ (i = .div ∧ f = fdiv ∧ isZeroDivisor b = false)) →
    1 ≤ s.sp → s.sp ≤ (stackCap : Int) - 1 → s.slot s.sp = some b → s.slot (s.sp - 1) = some a →
    ∃ t, exec i s = .next t ∧ Advanced s t 1 ∧ t.sp = s.sp - 1 ∧ t.slot (s.sp - 1) = some (f a b) ∧
      SlotsKeptBut (s.sp - 1) s t ∧ t.r1 = s.r1 ∧ t.r2 = s.r2 ∧ t.out = s.out

/-- 43_arithmetic.md R151: with fewer than two values on the stack ADD, SUB, MUL and DIV raise StackUnderflow, DIV before its zero
test. The model follows the spec's decisions here: the pops before the zero test are D13, that everything else stays as before a
failing step is the spec's D14 (60_exceptions.md R204), log 13, and the record's `index` and `byte` are the spec's D12, log 15. -/
def Obligations.BinaryOperationsNeedTwoValues : Prop :=
  ∀ (s : State) (i : Instr), (i = .add ∨ i = .sub ∨ i = .mul ∨ i = .div) →
    (s.sp = -1 ∨ (s.sp = 0 ∧ ∃ v, s.slot 0 = some v)) →
    exec i s = .next (failedWith s .stackUnderflow (some i.opcodeByte) none none none)

/-- 43_arithmetic.md R155: DIV of `a` by `b`, `b` on top. A divisor of `+0` or `-0` raises DivisionByZero with both operands,
whatever `a` is, and pushes nothing; any other divisor completes; the stack is checked first. The model follows the spec's decisions
here: that `-0` counts as zero is D10, the pops before the zero test are D13, that everything else stays as before a failing step is
the spec's D14 (60_exceptions.md R204), log 13, and the record's `index` and `byte` are the spec's D12, log 15. -/
def Obligations.DivDividesOrFailsOnZero : Prop :=
  (∀ (s : State) (a b : Word), 1 ≤ s.sp → s.sp ≤ (stackCap : Int) - 1 → s.slot s.sp = some b → s.slot (s.sp - 1) = some a →
    ((b = 0x0000000000000000#64 ∨ b = 0x8000000000000000#64) →
      exec .div s = .next (failedWith s .divisionByZero (some (opcodeMap .DIV)) none (some a) (some b))) ∧
    (b ≠ 0x0000000000000000#64 → b ≠ 0x8000000000000000#64 →
      ∃ t, exec .div s = .next t ∧ Advanced s t 1 ∧ t.sp = s.sp - 1 ∧ t.slot (s.sp - 1) = some (fdiv a b) ∧
        SlotsKeptBut (s.sp - 1) s t ∧ t.r1 = s.r1 ∧ t.r2 = s.r2 ∧ t.out = s.out)) ∧
  ∀ s : State, (s.sp = -1 ∨ (s.sp = 0 ∧ ∃ v, s.slot 0 = some v)) →
    exec .div s = .next (failedWith s .stackUnderflow (some (opcodeMap .DIV)) none none none)

/-- 43_arithmetic.md R156: NEG flips bit 63 of the top of the stack and keeps the other bits, whatever the pattern; twice, it gives
the pattern back; an empty stack raises StackUnderflow. The model follows the spec's decisions here: the flip on every pattern is D9
(40_numeric_decoder.md R108), that everything else stays as before a failing step is the spec's D14 (60_exceptions.md R204), log 13,
and the record's `index` and `byte` are the spec's D12, log 15. -/
def Obligations.NegFlipsTheSignOfTheTop : Prop :=
  (∀ (s : State) (b : Word), 0 ≤ s.sp → s.sp ≤ (stackCap : Int) - 1 → s.slot s.sp = some b →
    ∃ t r, exec .neg s = .next t ∧ Advanced s t 1 ∧ t.sp = s.sp ∧ t.slot s.sp = some r ∧
      r.getLsbD 63 = !(b.getLsbD 63) ∧ (∀ k, k < 63 → r.getLsbD k = b.getLsbD k) ∧
      SlotsKeptBut s.sp s t ∧ t.r1 = s.r1 ∧ t.r2 = s.r2 ∧ t.out = s.out ∧
      ∃ u, exec .neg t = .next u ∧ u.slot s.sp = some b) ∧
  ∀ s : State, s.sp = -1 → exec .neg s = .next (failedWith s .stackUnderflow (some (opcodeMap .NEG)) none none none)

/-- 44_registers.md R170 and R171: ST1 and ST2 move the top of the stack into their register, bit for bit, and leave the other
register, every slot and the output alone; an empty stack raises StackUnderflow. The model follows the spec's decisions here: that
everything else stays as before a failing step is the spec's D14 (60_exceptions.md R204), log 13, and the record's `index` and
`byte` are the spec's D12, log 15. -/
def Obligations.StoresPopIntoTheirRegister : Prop :=
  encode .st1 = [opcodeMap .ST1] ∧ encode .st2 = [opcodeMap .ST2] ∧
  (∀ (s : State) (v : Word), 0 ≤ s.sp → s.sp ≤ (stackCap : Int) - 1 → s.slot s.sp = some v →
    (∃ t, exec .st1 s = .next t ∧ Advanced s t 1 ∧ t.sp = s.sp - 1 ∧ t.r1 = v ∧ t.r2 = s.r2 ∧ SlotsKept s t ∧ t.out = s.out) ∧
    ∃ t, exec .st2 s = .next t ∧ Advanced s t 1 ∧ t.sp = s.sp - 1 ∧ t.r1 = s.r1 ∧ t.r2 = v ∧ SlotsKept s t ∧ t.out = s.out) ∧
  ∀ s : State, s.sp = -1 →
    exec .st1 s = .next (failedWith s .stackUnderflow (some (opcodeMap .ST1)) none none none) ∧
    exec .st2 s = .next (failedWith s .stackUnderflow (some (opcodeMap .ST2)) none none none)

/-- 30_encoding.md R78: the operand byte `0x12` copies `r1` into `r2`, `0x21` copies `r2` into `r1`, the source kept and the stack
not touched, and every other operand byte raises InvalidArgument with that byte. The model follows the spec's decisions here: that
everything else stays as before a failing step is the spec's D14 (60_exceptions.md R204), log 13, and the record's `index` and
`byte` are the spec's D12, log 15. -/
def Obligations.MovCopiesOrRaisesInvalidArgument : Prop :=
  ∀ s : State,
    (∃ t, exec (.mov (movSrc 0x12#8) (movDst 0x12#8)) s = .next t ∧ Advanced s t 2 ∧ t.r1 = s.r1 ∧ t.r2 = s.r1 ∧ t.sp = s.sp ∧
      SlotsKept s t ∧ t.out = s.out) ∧
    (∃ t, exec (.mov (movSrc 0x21#8) (movDst 0x21#8)) s = .next t ∧ Advanced s t 2 ∧ t.r1 = s.r2 ∧ t.r2 = s.r2 ∧ t.sp = s.sp ∧
      SlotsKept s t ∧ t.out = s.out) ∧
    ∀ m : Byte, m ≠ 0x12#8 → m ≠ 0x21#8 →
      exec (.mov (movSrc m) (movDst m)) s = .next (failedWith s .invalidArgument (some (opcodeMap .MOV)) (some m) none none)

/-- 44_registers.md R174: the step at a MOV reads one operand byte, source in the high nibble, and runs that MOV; with no operand
byte it raises ProgramOverrun. The model follows the spec's decisions here: that everything else stays as before a failing step is
the spec's D14 (60_exceptions.md R204), log 13, and the record's `index` and `byte` are the spec's D12, log 15. -/
def Obligations.MovReadsItsOperandByte : Prop :=
  ∀ s : State, s.mode = .running → s.programByte s.pc = some (opcodeMap .MOV) →
    (∀ m, s.programByte (s.pc + 1) = some m →
      (m = 0x12#8 → ∃ t, step s = .next t ∧ t = { s with pc := s.pc + 2, r2 := s.r1 }) ∧
      (m = 0x21#8 → ∃ t, step s = .next t ∧ t = { s with pc := s.pc + 2, r1 := s.r2 }) ∧
      (m ≠ 0x12#8 → m ≠ 0x21#8 →
        step s = .next (failedWith s .invalidArgument (some (opcodeMap .MOV)) (some m) none none))) ∧
    (s.programByte (s.pc + 1) = none →
      step s = .next (failedWith s .programOverrun (some (opcodeMap .MOV)) none none none))

/-- 45_output.md R190: PRINT pops the top of the stack and appends its text as one line, and changes nothing else; an empty stack
raises StackUnderflow and nothing is emitted. The model follows the spec's decisions here: that everything else stays as before a
failing step is the spec's D14 (60_exceptions.md R204), log 13, and the record's `index` and `byte` are the spec's D12, log 15. -/
def Obligations.PrintPopsAndEmitsOneLine : Prop :=
  encode .print = [opcodeMap .PRINT] ∧
  (∀ (s : State) (x : Word), 0 ≤ s.sp → s.sp ≤ (stackCap : Int) - 1 → s.slot s.sp = some x →
    ∃ t, exec .print s = .next t ∧ Advanced s t 1 ∧ t.sp = s.sp - 1 ∧ t.out = s.out ++ [fmt6 x] ∧
      SlotsKept s t ∧ t.r1 = s.r1 ∧ t.r2 = s.r2) ∧
  ∀ s : State, s.sp = -1 → exec .print s = .next (failedWith s .stackUnderflow (some (opcodeMap .PRINT)) none none none)

/-- 20_memory.md R58 and R59: `push` on a full stack raises StackOverflow, else it moves `sp` up and writes the slot; `pop` on an empty
stack raises StackUnderflow, else it returns the top and moves `sp` down, the slot keeping its bits; a pop after a push returns the
value pushed. -/
def Obligations.PushAndPopFollowTheirPseudocode : Prop :=
  (∀ (s : State) (v : Word), s.sp = (stackCap : Int) - 1 → push v s = .error (.raise .stackOverflow)) ∧
  (∀ (s : State) (v : Word), -1 ≤ s.sp → s.sp < (stackCap : Int) - 1 →
    ∃ t, push v s = .ok t ∧ t.sp = s.sp + 1 ∧ t.slot t.sp = some v ∧ SlotsKeptBut t.sp s t ∧
      pop t = .ok (v, { t with sp := s.sp })) ∧
  (∀ s : State, s.sp = -1 → pop s = .error (.raise .stackUnderflow)) ∧
  ∀ (s : State) (v : Word), 0 ≤ s.sp → s.sp ≤ (stackCap : Int) - 1 → s.slot s.sp = some v →
    ∃ t, pop s = .ok (v, t) ∧ t.sp = s.sp - 1 ∧ SlotsKept s t

/-! ### The numerics -/

/-- 40_numeric_decoder.md R104 and R105: on finite operands ADD, SUB, MUL and DIV (by a non-zero) give the exact mathematical result
correctly rounded once, to nearest with ties to even. Rounding is the spec's D5 and gradual underflow its D7, log 7. -/
def Obligations.ArithmeticIsCorrectlyRounded : Prop :=
  ∀ (op : ArithOp) (a b : Word), isFinite a = true → isFinite b = true → (op = .div → isZero b = false) →
    ∃ r, fpu op a b = .ok r ∧ CorrectlyRounded (exactResult op (value a) (value b)) r

/-- 40_numeric_decoder.md R107: with a NaN operand, and for an invalid operation, the result is `NAN_RESULT(op, a, b)`, a quiet NaN;
for no other operands is it a NaN. -/
def Obligations.NanResultsAreQuiet : Prop :=
  ∀ (op : ArithOp) (a b r : Word), fpu op a b = .ok r →
    ((isNaN a = true ∨ isNaN b = true ∨ InvalidOperation op a b) → r = nanResult op a b ∧ expField r = 2047 ∧ r.getLsbD 51 = true) ∧
    (isNaN r = true → isNaN a = true ∨ isNaN b = true ∨ InvalidOperation op a b)

/-- 40_numeric_decoder.md R108: `fneg` flips bit 63 and keeps bits 62:0, for every pattern. -/
def Obligations.FnegFlipsBit63 : Prop :=
  ∀ x : Word, (fneg x).getLsbD 63 = !(x.getLsbD 63) ∧ ∀ k, k < 63 → (fneg x).getLsbD k = x.getLsbD k

/-- 40_numeric_decoder.md R109: the signs of zero results, and `fsub(a, b) = fadd(a, fneg(b))` for every non-NaN pair. The spec
takes these from general knowledge (G6), log 7. On invalid pairs the equality of SUB and ADD is the model's reading of R109
(DEDUCED, log 6), and the quotient clause takes in a zero divisor, where the value of `fdiv` is the model's (PRESUMED, log 7) and no
step reads it. -/
def Obligations.SignsOfZeroResults : Prop :=
  (∀ a b : Word, isFinite a = true → isFinite b = true → value a + value b = 0 →
    fadd a b = if a = 0x8000000000000000#64 ∧ b = 0x8000000000000000#64 then 0x8000000000000000#64 else 0x0000000000000000#64) ∧
  (∀ a b : Word, isNaN a = false → isNaN b = false → fsub a b = fadd a (fneg b)) ∧
  (∀ a b : Word, isNaN (fmul a b) = false → signBit (fmul a b) = (signBit a != signBit b)) ∧
  ∀ a b : Word, isNaN (fdiv a b) = false → signBit (fdiv a b) = (signBit a != signBit b)

/-- 40_numeric_decoder.md R110, the overflow and the infinities: a finite result whose exact magnitude reaches the rounding bound gives an
infinity; infinity arithmetic is exact. -/
def Obligations.InfinityArithmeticIsExact : Prop :=
  (∀ a b : Word, isInf a = true → isFinite b = true → fadd a b = a ∧ fadd b a = a) ∧
  (∀ a b : Word, isInf a = true → isInf b = true → signBit a = signBit b → fadd a b = a) ∧
  (∀ a b : Word, isInf a = true → isNaN b = false → isZero b = false →
    fmul a b = infOf (signBit a != signBit b) ∧ fmul b a = infOf (signBit a != signBit b)) ∧
  (∀ a b : Word, isFinite a = true → isInf b = true → fdiv a b = zeroOf (signBit a != signBit b)) ∧
  (∀ a b : Word, isInf a = true → isFinite b = true → isZero b = false → fdiv a b = infOf (signBit a != signBit b)) ∧
  ∀ (op : ArithOp) (a b : Word), isFinite a = true → isFinite b = true → (op = .div → isZero b = false) →
    overflowBound ≤ |exactResult op (value a) (value b)| →
    fpu op a b = .ok (infOf (decide (exactResult op (value a) (value b) < 0)))

/-- 43_arithmetic.md R157: ADD and MUL commute bit for bit when no operand is a NaN, and give a NaN in both orders when one is; NEG
is self-inverse; SUB and DIV do not commute; no operation is associative. That the law takes in invalid pairs is the model's reading
of R157 (DEDUCED, log 6); that no operation is associative is the spec's general knowledge (G10); NEG on every pattern is its D9. -/
def Obligations.LawsOfTheArithmeticUnit : Prop :=
  (∀ a b : Word, isNaN a = false → isNaN b = false → fadd a b = fadd b a ∧ fmul a b = fmul b a) ∧
  (∀ a b : Word, (isNaN a = true ∨ isNaN b = true) →
    isNaN (fadd a b) = true ∧ isNaN (fadd b a) = true ∧ isNaN (fmul a b) = true ∧ isNaN (fmul b a) = true) ∧
  (∀ x : Word, fneg (fneg x) = x) ∧
  (∃ a b, isFinite (fsub a b) = true ∧ isFinite (fsub b a) = true ∧ fsub a b ≠ fsub b a) ∧
  (∃ a b, isFinite (fdiv a b) = true ∧ isFinite (fdiv b a) = true ∧ fdiv a b ≠ fdiv b a) ∧
  ∀ f ∈ [fadd, fsub, fmul, fdiv], ∃ a b c,
    isFinite a = true ∧ isFinite b = true ∧ isFinite c = true ∧ f (f a b) c ≠ f a (f b c)

/-- 40_numeric_decoder.md R112: the zero test holds exactly on `+0` and `-0`. -/
def Obligations.ZeroTestHoldsOnBothZeros : Prop :=
  ∀ b : Word, isZeroDivisor b = true ↔ b = 0x0000000000000000#64 ∨ b = 0x8000000000000000#64

/-! ### The text of PRINT -/

/-- 45_output.md R191 and R194: the text of a finite value is a `-` when the sign bit is set, the digits of an integer part without
leading zeros, a point and exactly six digits; read as a number of millionths it is the one nearest to the exact magnitude, ties to
even (the spec's D11, log 10). -/
def Obligations.PrintedTextIsTheNearestDecimal : Prop :=
  ∀ x : Word, isFinite x = true →
    ∃ ip fp : List Char,
      fmt6 x = (if signBit x then ['-'] else []) ++ ip ++ ['.'] ++ fp ∧
      AllDigits ip ∧ ip ≠ [] ∧ (ip.length = 1 ∨ ip.head? ≠ some '0') ∧
      AllDigits fp ∧ fp.length = 6 ∧
      NearestEven (|value x| * 1000000) (readDecimal ip * 1000000 + readDecimal fp)

/-- 45_output.md R192 and R193: the texts of the infinities and of the NaNs, by the sign bit alone (the spec's D11, log 10). -/
def Obligations.PrintedTextOfInfinitiesAndNaNs : Prop :=
  fmt6 0x7FF0000000000000#64 = ['i', 'n', 'f'] ∧
  fmt6 0xFFF0000000000000#64 = ['-', 'i', 'n', 'f'] ∧
  ∀ x : Word, isNaN x = true → fmt6 x = if signBit x then ['-', 'n', 'a', 'n'] else ['n', 'a', 'n']

/-! ### The whole block -/

/-- 10_state.md R35 and 70_reset_and_hazards.md R230: what reset leaves. That the registers reset to the POSITIVE zero is the spec's
reading D17, log 17; that a slot without a value is `none` is log 9. -/
def Obligations.ResetLeavesTheStatedValues : Prop :=
  State.reset.mode = .running ∧ State.reset.pc = 0 ∧
  State.reset.r1 = 0x0000000000000000#64 ∧ State.reset.r2 = 0x0000000000000000#64 ∧
  State.reset.sp = -1 ∧ State.reset.out = [] ∧ State.reset.diag = none ∧
  ∀ i, State.reset.slot i = none

/-- The host's load and reset (10_state.md R41, 70_reset_and_hazards.md R232): the program's bytes stand at the indexes `0` to `L - 1`
and nowhere else, and the rest is the reset state. That the program is held in the state is the model's choice, log 1. -/
def Obligations.StartSuppliesTheProgram : Prop :=
  ∀ program : List Byte,
    (∀ i, (State.start program).programByte i = program[i]?) ∧
    (State.start program).programLength = program.length ∧
    Memory.dense (State.start program).prog = true ∧
    BlockInv (State.start program) ∧
    { State.start program with prog := [] } = State.reset

/-- The reset state meets the invariant. -/
def Obligations.ResetMeetsTheInvariant : Prop := BlockInv State.reset

/-- Every step keeps the invariant, from every state that meets it: `sp` stays in `[-1, capacity-1]` (10_state.md R28), the slots up to
it hold values (R29), the diagnostic stands exactly after a failure (R45), and the program store keeps its form. -/
def Obligations.EveryStepKeepsTheInvariant : Prop :=
  ∀ s t, BlockInv s → step s = .next t → BlockInv t

/-- Every running state that meets the invariant has a next state (93_implementation_defined.md Part 1: "Every state in `Running` has
exactly one successor"). -/
def Obligations.RunningBlockAlwaysSteps : Prop :=
  ∀ s, BlockInv s → s.mode = .running → ∃ t, step s = .next t

/-- 41_dispatcher.md R129, from every running state that meets the invariant: the run ends, within one step more than the bytes from
`pc` to the end of the program, so within `L + 1` steps from reset, and its result is then the triple (status, out, diag). -/
def Obligations.RunEndsWithinTheProgramLength : Prop :=
  ∀ s, BlockInv s → s.mode = .running →
    ∃ k t, k ≤ s.programLength - s.pc + 1 ∧ RunEndsIn s k t ∧
      ∃ n, t.status = some n ∧ t.result = some (n, t.out, t.diag)

/-- 70_reset_and_hazards.md R233, from every running state that meets the invariant: the run ends in success exactly when conditions (a)
to (d) and (f), read off the bytes alone, hold and no DIV found a zero divisor. -/
def Obligations.SuccessIsDecidedByTheBytesAndZeroDivisors : Prop :=
  ∀ s k t, BlockInv s → s.mode = .running → RunEndsIn s k t →
    (t.mode = .halted .success ↔ StaticallySound s ∧ t.diag.map Diag.kind ≠ some .divisionByZero)

/-- 70_reset_and_hazards.md R234, the NaN clause: two states that differ only in NaN bits take steps of the same outcome to states that
differ only in NaN bits and in the `nan`/`-nan` text of lines. So NaN bits decide neither the mode, the kind of failure, the number of
lines, nor whether DIV fails. -/
def Obligations.NanBitsDecideNothingElse : Prop :=
  ∀ s t, SameUpToNaN s t →
    (∀ s', step s = .next s' → ∃ t', step t = .next t' ∧ SameUpToNaN s' t') ∧
    (∀ f, step s = .fault f → step t = .fault f)

/-- 41_dispatcher.md R130 and 10_state.md R23: a step that does not fail moves `pc` by the length of the instruction at `pc` and no
step writes `pc` in any other way. That a failing step leaves `pc` is the spec's D14 (60_exceptions.md R204), log 13. -/
def Obligations.PcMovesOnlyByInstructionLengths : Prop :=
  ∀ s t, s.mode = .running → step s = .next t →
    (t.mode ≠ .halted .failure → ∃ i, decode (fetchBytes s) = .ok i ∧ t.pc = s.pc + i.length ∧ 1 ≤ i.length) ∧
    (t.mode = .halted .failure → t.pc = s.pc)

/-- 10_state.md R25, the writers: only ST1 and the MOV to `r1` change `r1`, only ST2 and the MOV to `r2` change `r2`. -/
def Obligations.OnlyStoresAndMovWriteRegisters : Prop :=
  ∀ (i : Instr) (s t : State), exec i s = .next t →
    (t.r1 ≠ s.r1 → i = .st1 ∨ i = .mov 2#4 1#4) ∧
    (t.r2 ≠ s.r2 → i = .st2 ∨ i = .mov 1#4 2#4)

/-- 10_state.md R44: only PRINT emits, one line at the end of the output for each PRINT that completes; no step takes a line back. -/
def Obligations.OnlyPrintEmits : Prop :=
  ∀ (s t : State), s.mode = .running → step s = .next t →
    (decode (fetchBytes s) = .ok .print ∧ t.mode = .running ∧ ∃ x, s.slot s.sp = some x ∧ t.out = s.out ++ [fmt6 x]) ∨
    ((decode (fetchBytes s) ≠ .ok .print ∨ t.mode = .halted .failure) ∧ t.out = s.out)

/-- 20_memory.md R51: no step writes the program store. -/
def Obligations.ProgramStoreIsNeverWritten : Prop :=
  ∀ s t, step s = .next t → t.prog = s.prog ∧ ∀ i, t.programByte i = s.programByte i

/-- 44_registers.md R175: ST1 then LD1 leaves the stack and `sp` as they were with `r1` the value on top, ST2 then LD2 likewise
(`LD2_SOURCE` = 2, log 4), and after ST1, MOV r1 to r2 and LD2 the top is the value stored. -/
def Obligations.StoreThenLoadRestoresTheStack : Prop :=
  ∀ (s : State) (v : Word), 0 ≤ s.sp → s.sp ≤ (stackCap : Int) - 1 → s.slot s.sp = some v →
    (∃ t u, exec .st1 s = .next t ∧ exec .ld1 t = .next u ∧ u.stack = s.stack ∧ u.sp = s.sp ∧ u.r1 = v ∧ u.r2 = s.r2) ∧
    (∃ t u, exec .st2 s = .next t ∧ exec .ld2 t = .next u ∧ u.stack = s.stack ∧ u.sp = s.sp ∧ u.r2 = v ∧ u.r1 = s.r1) ∧
    ∃ t u w, exec .st1 s = .next t ∧ exec (.mov 1#4 2#4) t = .next u ∧ exec .ld2 u = .next w ∧
      w.sp = s.sp ∧ w.slot w.sp = some v

/-- 10_state.md R43: `halted` holds exactly in `Halted(code)`; the status is then 0 for success and `FAIL_STATUS`, which is not 0, for
failure, and undefined while running. -/
def Obligations.StatusFollowsTheMode : Prop :=
  ∀ s : State,
    (s.halted = true ↔ ∃ c, s.mode = .halted c) ∧
    (s.mode = .running → s.status = none) ∧
    (s.mode = .halted .success → s.status = some 0) ∧
    (s.mode = .halted .failure → s.status = some failStatus) ∧
    failStatus ≠ 0

/-- The bytes of a test program (30_encoding.md R86) decode line by line: a run from the start of an assembled program steps through
its first instruction as `exec` of it, whatever lines follow. -/
def Obligations.AssembledProgramRunsItsFirstLine : Prop :=
  ∀ (i : Instr) (lines : List AsmLine),
    step (State.start (assemble (.instr i :: lines))) = exec i (State.start (assemble (.instr i :: lines)))

end Statements
end

