-- ==== Sys2Proof/Laws/Float.lean ====
section
/-! SUPPORT. The fields of binary64 patterns, packing, rounding a quotient, and the one lemma on correct rounding that every operation's
result follows from (40_numeric_decoder.md R100, R104 to R110). -/

namespace Sys2Proof

open Sys2Proof.Machine

/-! ### Fields -/

theorem expField_eq (w : Word) : expField w = w.toNat / 2 ^ 52 % 2048 := by
  simp [expField, BitVec.extractLsb'_toNat, Nat.shiftRight_eq_div_pow]

theorem fracField_eq (w : Word) : fracField w = w.toNat % 2 ^ 52 := by
  simp [fracField, BitVec.extractLsb'_toNat]

theorem signBit_eq (w : Word) : signBit w = decide (2 ^ 63 ≤ w.toNat) := by
  have hw := w.isLt
  rw [signBit, BitVec.getLsbD, Nat.testBit_eq_decide_div_mod_eq]
  apply decide_eq_decide.mpr
  omega

theorem expField_lt (w : Word) : expField w < 2048 := by
  rw [expField_eq]
  omega

theorem fracField_lt (w : Word) : fracField w < 2 ^ 52 := by
  rw [fracField_eq]
  omega

/-- A pattern is its sign, exponent and fraction (R100). -/
theorem toNat_eq_fields (w : Word) :
    w.toNat = (if signBit w then 2 ^ 63 else 0) + expField w * 2 ^ 52 + fracField w := by
  have hw := w.isLt
  rw [signBit_eq, expField_eq, fracField_eq]
  by_cases h : 2 ^ 63 ≤ w.toNat
  · simp only [h, decide_true, if_true]
    omega
  · simp only [h, decide_false, Bool.false_eq_true, if_false]
    omega

/-- Two patterns with the same three fields are the same. -/
theorem eq_of_fields {v w : Word} (hs : signBit v = signBit w) (he : expField v = expField w)
    (hf : fracField v = fracField w) : v = w := by
  apply BitVec.eq_of_toNat_eq
  rw [toNat_eq_fields v, toNat_eq_fields w, hs, he, hf]

/-! ### Classes -/

theorem isNaN_iff (w : Word) : isNaN w = true ↔ expField w = 2047 ∧ fracField w ≠ 0 := by simp [isNaN]

theorem isInf_iff (w : Word) : isInf w = true ↔ expField w = 2047 ∧ fracField w = 0 := by simp [isInf]

theorem isZero_iff (w : Word) : isZero w = true ↔ expField w = 0 ∧ fracField w = 0 := by simp [isZero]

theorem isFinite_iff (w : Word) : isFinite w = true ↔ expField w ≠ 2047 := by simp [isFinite]

theorem not_isNaN_of_isFinite {w : Word} (h : isFinite w = true) : isNaN w = false := by
  rw [isFinite_iff] at h
  simp [isNaN, h]

theorem not_isInf_of_isFinite {w : Word} (h : isFinite w = true) : isInf w = false := by
  rw [isFinite_iff] at h
  simp [isInf, h]

/-! ### Packing -/

theorem pack_toNat {s : Bool} {m : Nat} (h : m < 2 ^ 63) : (pack s m).toNat = (if s then 2 ^ 63 else 0) + m := by
  rw [pack, BitVec.toNat_ofNat]
  cases s
  · simp only [Bool.false_eq_true, if_false]
    omega
  · simp only [if_true]
    omega

theorem signBit_pack {s : Bool} {m : Nat} (h : m < 2 ^ 63) : signBit (pack s m) = s := by
  rw [signBit_eq, pack_toNat h]
  cases s
  · simp only [Bool.false_eq_true, if_false, decide_eq_false_iff_not]
    omega
  · simp only [if_true, decide_eq_true_eq]
    omega

theorem expField_pack {s : Bool} {m : Nat} (h : m < 2 ^ 63) : expField (pack s m) = m / 2 ^ 52 := by
  rw [expField_eq, pack_toNat h]
  cases s
  · simp only [Bool.false_eq_true, if_false]
    omega
  · simp only [if_true]
    omega

theorem fracField_pack {s : Bool} {m : Nat} (h : m < 2 ^ 63) : fracField (pack s m) = m % 2 ^ 52 := by
  rw [fracField_eq, pack_toNat h]
  cases s
  · simp only [Bool.false_eq_true, if_false]
    omega
  · simp only [if_true]
    omega

/-- Bit 0 of a packed magnitude. -/
theorem getLsbD_zero_pack {s : Bool} {m : Nat} (h : m < 2 ^ 63) : (pack s m).getLsbD 0 = decide (m % 2 = 1) := by
  rw [BitVec.getLsbD, Nat.testBit_zero, pack_toNat h]
  cases s
  · simp
  · simp only [if_true]
    congr 1
    apply propext
    omega

theorem isInf_infOf (s : Bool) : isInf (infOf s) = true := by cases s <;> decide

theorem signBit_infOf (s : Bool) : signBit (infOf s) = s := by cases s <;> decide

/-! ### Values -/

/-- The value is the signed magnitude in units of 2^-1074. -/
theorem value_eq (w : Word) : value w = (if signBit w then -1 else 1) * ((magnitude w : ℚ) / 2 ^ 1074) := by
  unfold value magnitude
  congr 1
  have h1 : (2 : ℚ) ^ (-1074 : ℤ) = 1 / 2 ^ 1074 := by
    rw [zpow_neg, one_div]
    norm_cast
  split
  · rw [h1, mul_one_div]
  · rename_i he
    have h2 : (2 : ℚ) ^ ((expField w : ℤ) - 1075) = 2 ^ (expField w - 1) * (1 / 2 ^ 1074) := by
      rw [← h1, show ((expField w : ℤ) - 1075) = ((expField w - 1 : ℕ) : ℤ) + (-1074 : ℤ) by omega,
        zpow_add₀ (by norm_num : (2 : ℚ) ≠ 0), zpow_natCast]
    rw [h2, Nat.shiftLeft_eq, mul_one_div, mul_div_assoc']
    push_cast
    rfl

/-- The magnitude of the value. -/
theorem abs_value (w : Word) : |value w| = (magnitude w : ℚ) / 2 ^ 1074 := by
  have h : (0 : ℚ) ≤ (magnitude w : ℚ) / 2 ^ 1074 := by positivity
  rw [value_eq]
  generalize (magnitude w : ℚ) / 2 ^ 1074 = y at h
  split <;> simp [abs_of_nonneg h]

theorem value_eq_signedUnits (w : Word) : value w = (signedUnits w : ℚ) / 2 ^ 1074 := by
  rw [value_eq, signedUnits]
  generalize (2 : ℚ) ^ 1074 = u
  split
  · push_cast
    ring
  · push_cast
    ring

theorem signedUnits_natAbs (w : Word) : (signedUnits w).natAbs = magnitude w := by
  unfold signedUnits
  split <;> omega

theorem magnitude_eq_zero (w : Word) : magnitude w = 0 ↔ isZero w = true := by
  rw [isZero_iff, magnitude]
  split
  · simp [*]
  · rw [Nat.shiftLeft_eq]
    simp [*]

/-- Every finite magnitude is a multiple of 2^k or lies below 2^(52+k). -/
theorem magnitude_grid (w : Word) (k : Nat) : 2 ^ k ∣ magnitude w ∨ magnitude w < 2 ^ (52 + k) := by
  have hf := fracField_lt w
  unfold magnitude
  split
  · right
    calc fracField w < 2 ^ 52 := hf
      _ ≤ 2 ^ (52 + k) := Nat.pow_le_pow_right (by norm_num) (by omega)
  · rw [Nat.shiftLeft_eq]
    by_cases h : k ≤ expField w - 1
    · exact .inl (Dvd.dvd.mul_left (pow_dvd_pow 2 h) _)
    · right
      calc (2 ^ 52 + fracField w) * 2 ^ (expField w - 1) < 2 ^ 53 * 2 ^ (expField w - 1) :=
            Nat.mul_lt_mul_of_pos_right (by omega) (by positivity)
        _ = 2 ^ (53 + (expField w - 1)) := by rw [pow_add]
        _ ≤ 2 ^ (52 + k) := Nat.pow_le_pow_right (by norm_num) (by omega)

/-! ### Rounding a quotient -/

/-- The rounded quotient is within one half, and an exact half falls on an even number. -/
theorem roundQuot_spec (n d : Nat) (hd : 0 < d) :
    |(roundQuot .halfEven n d : ℚ) - (n : ℚ) / d| ≤ 1 / 2 ∧
      (|(roundQuot .halfEven n d : ℚ) - (n : ℚ) / d| = 1 / 2 → roundQuot .halfEven n d % 2 = 0) := by
  have hdq : (0 : ℚ) < d := by exact_mod_cast hd
  have hn : (n : ℚ) = d * (n / d : ℕ) + (n % d : ℕ) := by exact_mod_cast (Nat.div_add_mod n d).symm
  have hr : n % d < d := Nat.mod_lt _ hd
  have hrq : ((n % d : ℕ) : ℚ) < d := by exact_mod_cast hr
  have hr0 : (0 : ℚ) ≤ ((n % d : ℕ) : ℚ) := by positivity
  have hy : (n : ℚ) / d = (n / d : ℕ) + ((n % d : ℕ) : ℚ) / d := by
    rw [hn]
    field_simp
  have hlo : ((n / d : ℕ) : ℚ) - (n : ℚ) / d = -(((n % d : ℕ) : ℚ) / d) := by rw [hy]; ring
  have hhi : ((n / d + 1 : ℕ) : ℚ) - (n : ℚ) / d = 1 - ((n % d : ℕ) : ℚ) / d := by rw [hy]; push_cast; ring
  have ht0 : 0 ≤ ((n % d : ℕ) : ℚ) / d := by positivity
  have ht1 : ((n % d : ℕ) : ℚ) / d < 1 := by rwa [div_lt_one hdq]
  simp only [roundQuot]
  split
  · rename_i h
    have : ((n % d : ℕ) : ℚ) / d < 1 / 2 := by
      rw [div_lt_iff₀ hdq]
      have : (2 * (n % d : ℕ) : ℚ) < d := by exact_mod_cast h
      linarith
    rw [hlo, abs_neg, abs_of_nonneg ht0]
    exact ⟨by linarith, fun h => by linarith⟩
  · split
    · rename_i h
      have : 1 / 2 < ((n % d : ℕ) : ℚ) / d := by
        rw [lt_div_iff₀ hdq]
        have : (d : ℚ) < 2 * (n % d : ℕ) := by exact_mod_cast h
        linarith
      rw [hhi, abs_of_nonneg (by linarith)]
      exact ⟨by linarith, fun h => by linarith⟩
    · rename_i h1 h2
      have : ((n % d : ℕ) : ℚ) / d = 1 / 2 := by
        rw [div_eq_iff (ne_of_gt hdq)]
        have : (2 * (n % d : ℕ) : ℚ) = d := by exact_mod_cast (by omega : 2 * (n % d) = d)
        linarith
      by_cases he : n / d % 2 = 0
      · simp only [he, if_true]
        rw [hlo, abs_neg, this]
        norm_num [he]
      · simp only [he, if_false]
        rw [hhi, this]
        norm_num
        omega

/-- No natural number is nearer, and a tie with another one falls on an even number. -/
theorem roundQuot_nearest (n d : Nat) (hd : 0 < d) (j : Nat) :
    |(roundQuot .halfEven n d : ℚ) - (n : ℚ) / d| ≤ |(j : ℚ) - (n : ℚ) / d| ∧
      (j ≠ roundQuot .halfEven n d → |(j : ℚ) - (n : ℚ) / d| = |(roundQuot .halfEven n d : ℚ) - (n : ℚ) / d| →
        roundQuot .halfEven n d % 2 = 0) := by
  obtain ⟨h1, h2⟩ := roundQuot_spec n d hd
  by_cases hj : j = roundQuot .halfEven n d
  · subst hj
    exact ⟨le_refl _, fun h => absurd rfl h⟩
  · have hne : (1 : ℚ) ≤ |(j : ℚ) - (roundQuot .halfEven n d : ℚ)| := by
      have : (1 : ℤ) ≤ |(j : ℤ) - (roundQuot .halfEven n d : ℤ)| := Int.one_le_abs (by omega)
      exact_mod_cast this
    have htri : |(j : ℚ) - (roundQuot .halfEven n d : ℚ)| ≤
        |(j : ℚ) - (n : ℚ) / d| + |(roundQuot .halfEven n d : ℚ) - (n : ℚ) / d| := by
      rw [abs_sub_comm (roundQuot .halfEven n d : ℚ)]
      exact abs_sub_le _ _ _
    exact ⟨by linarith, fun _ he => h2 (by linarith)⟩

/-- A quotient at most a natural number rounds to at most that number. -/
theorem roundQuot_le {n d m : Nat} (hd : 0 < d) (h : n ≤ d * m) : roundQuot .halfEven n d ≤ m := by
  have hdq : (0 : ℚ) < d := by exact_mod_cast hd
  obtain ⟨h1, -⟩ := roundQuot_nearest n d hd m
  by_contra hc
  have hy : (n : ℚ) / d ≤ m := by
    rw [div_le_iff₀ hdq]
    have : (n : ℚ) ≤ (d * m : ℕ) := by exact_mod_cast h
    push_cast at this
    linarith
  have hm : (m : ℚ) + 1 ≤ roundQuot .halfEven n d := by exact_mod_cast Nat.lt_of_not_le hc
  rw [abs_of_nonneg (by linarith), abs_of_nonneg (by linarith)] at h1
  linarith

/-- A quotient at least a natural number rounds to at least that number. -/
theorem le_roundQuot {n d m : Nat} (hd : 0 < d) (h : d * m ≤ n) : m ≤ roundQuot .halfEven n d := by
  have hdq : (0 : ℚ) < d := by exact_mod_cast hd
  obtain ⟨h1, -⟩ := roundQuot_nearest n d hd m
  by_contra hc
  have hy : (m : ℚ) ≤ (n : ℚ) / d := by
    rw [le_div_iff₀ hdq]
    have : ((d * m : ℕ) : ℚ) ≤ n := by exact_mod_cast h
    push_cast at this
    linarith
  have hm : (roundQuot .halfEven n d : ℚ) + 1 ≤ m := by exact_mod_cast Nat.lt_of_not_le hc
  rw [abs_of_nonpos (by linarith), abs_of_nonpos (by linarith)] at h1
  linarith

end Sys2Proof
end

