-- ==== Sys2Proof/Laws/Digits.lean ====
section
/-! SUPPORT. The decimal digits of PRINT's text read back as the number they were written from, and that number is the nearest
(45_output.md R191, R194). -/

namespace Sys2Proof

open Sys2Proof.Machine

theorem digitChar_toNat {d : Nat} (h : d < 10) : (digitChar d).toNat = 48 + d := by
  unfold digitChar
  interval_cases d <;> decide

/-- Only 0 is written with the digit `0`. -/
theorem digitChar_ne_zero {d : Nat} (h : d < 10) (h0 : 0 < d) : digitChar d ≠ '0' := by
  intro hc
  have h1 := digitChar_toNat h
  have h2 : '0'.toNat = 48 := by decide
  rw [hc, h2] at h1
  omega

theorem readDecimal_append (xs : List Char) (c : Char) : readDecimal (xs ++ [c]) = 10 * readDecimal xs + (c.toNat - 48) := by
  simp [readDecimal]

/-- Enough fuel writes a number as its digits: they read back, and only a single digit may be a leading zero. -/
theorem decimalDigits_spec (fuel n : Nat) (h : n < 10 ^ (fuel + 1)) :
    AllDigits (decimalDigits (fuel + 1) n) ∧ readDecimal (decimalDigits (fuel + 1) n) = n ∧ decimalDigits (fuel + 1) n ≠ [] ∧
      ((decimalDigits (fuel + 1) n).length = 1 ∨ (decimalDigits (fuel + 1) n).head? ≠ some '0') ∧
      (0 < n → (decimalDigits (fuel + 1) n).head? ≠ some '0') := by
  induction fuel generalizing n with
  | zero =>
    have hn : n < 10 := by simpa using h
    simp only [decimalDigits, hn, if_true]
    refine ⟨?_, ?_, by simp, .inl rfl, fun h0 => ?_⟩
    · intro c hc
      rw [List.mem_singleton.mp hc, digitChar_toNat hn]
      omega
    · simp [readDecimal, digitChar_toNat hn]
    · simpa using digitChar_ne_zero hn h0
  | succ fuel ih =>
    rw [decimalDigits]
    split
    · rename_i hn
      refine ⟨?_, ?_, by simp, .inl rfl, fun h0 => ?_⟩
      · intro c hc
        rw [List.mem_singleton.mp hc, digitChar_toNat hn]
        omega
      · simp [readDecimal, digitChar_toNat hn]
      · simpa using digitChar_ne_zero hn h0
    · rename_i hn
      have hlt : n / 10 < 10 ^ (fuel + 1) := by
        rw [pow_succ] at h
        omega
      obtain ⟨h1, h2, h3, -, h5⟩ := ih (n / 10) hlt
      have hm : n % 10 < 10 := Nat.mod_lt _ (by norm_num)
      have hh : (decimalDigits (fuel + 1) (n / 10) ++ [digitChar (n % 10)]).head? ≠ some '0' := by
        rw [List.head?_append_of_ne_nil _ h3]
        exact h5 (by omega)
      refine ⟨?_, ?_, by simp, .inr hh, fun _ => hh⟩
      · intro c hc
        rcases List.mem_append.mp hc with hc | hc
        · exact h1 c hc
        · rw [List.mem_singleton.mp hc, digitChar_toNat hm]
          omega
      · rw [readDecimal_append, h2, digitChar_toNat hm]
        omega

/-- Everything `decimal` gives. -/
theorem decimal_spec (n : Nat) :
    AllDigits (decimal n) ∧ readDecimal (decimal n) = n ∧ decimal n ≠ [] ∧
      ((decimal n).length = 1 ∨ (decimal n).head? ≠ some '0') := by
  have h : n < 10 ^ (Nat.log2 n + 1) := lt_of_lt_of_le Nat.lt_log2_self (Nat.pow_le_pow_left (by norm_num) _)
  obtain ⟨h1, h2, h3, h4, -⟩ := decimalDigits_spec (Nat.log2 n) n h
  exact ⟨h1, h2, h3, h4⟩

/-- Everything `pad6` gives. -/
theorem pad6_spec (n : Nat) (h : n < 1000000) : AllDigits (pad6 n) ∧ readDecimal (pad6 n) = n ∧ (pad6 n).length = 6 := by
  have hd : ∀ k : Nat, (digitChar (k % 10)).toNat = 48 + k % 10 := fun k => digitChar_toNat (Nat.mod_lt _ (by norm_num))
  refine ⟨?_, ?_, rfl⟩
  · intro c hc
    simp only [pad6, List.mem_cons, List.not_mem_nil, or_false] at hc
    rcases hc with rfl | rfl | rfl | rfl | rfl | rfl <;> (rw [hd]; omega)
  · simp only [readDecimal, pad6, List.foldl_cons, List.foldl_nil, hd]
    omega

/-- The number of millionths printed is the nearest to the exact one, ties to even. -/
theorem roundedMillionths_nearest (x : Word) : NearestEven (|value x| * 1000000) (roundedMillionths .halfEven x) := by
  have hs := roundQuot_spec (magnitude x * 1000000) unitsPerOne (by decide)
  have e : |value x| * 1000000 = ((magnitude x * 1000000 : ℕ) : ℚ) / unitsPerOne := by
    have hu : (unitsPerOne : ℚ) = 2 ^ 1074 := by
      rw [unitsPerOne, Nat.shiftLeft_eq, one_mul]
      push_cast
      rfl
    rw [abs_value, hu]
    push_cast
    ring
  rw [e, roundedMillionths]
  unfold NearestEven
  rcases lt_or_eq_of_le hs.1 with h | h
  · exact .inl h
  · exact .inr ⟨h, hs.2 h⟩

end Sys2Proof
end

