-- ==== Sys2Proof/Laws/State.lean ====
section
/-! SUPPORT. One lemma per field per update of State, true by `rfl`, so that no proof unfolds a record update. -/

namespace Sys2Proof.Machine

/-! ### pushed -/

@[simp] theorem pushed_mode (s : State) (v : Word) : (s.pushed v).mode = s.mode := rfl
@[simp] theorem pushed_pc (s : State) (v : Word) : (s.pushed v).pc = s.pc := rfl
@[simp] theorem pushed_r1 (s : State) (v : Word) : (s.pushed v).r1 = s.r1 := rfl
@[simp] theorem pushed_r2 (s : State) (v : Word) : (s.pushed v).r2 = s.r2 := rfl
@[simp] theorem pushed_stack (s : State) (v : Word) : (s.pushed v).stack = setSlot s.stack (s.sp + 1) v := rfl
@[simp] theorem pushed_sp (s : State) (v : Word) : (s.pushed v).sp = s.sp + 1 := rfl
@[simp] theorem pushed_out (s : State) (v : Word) : (s.pushed v).out = s.out := rfl
@[simp] theorem pushed_diag (s : State) (v : Word) : (s.pushed v).diag = s.diag := rfl
@[simp] theorem pushed_prog (s : State) (v : Word) : (s.pushed v).prog = s.prog := rfl

/-! ### writeReg -/

@[simp] theorem writeReg_mode (s : State) (i : Reg) (v : Word) : (writeReg s i v).mode = s.mode := by cases i <;> rfl
@[simp] theorem writeReg_pc (s : State) (i : Reg) (v : Word) : (writeReg s i v).pc = s.pc := by cases i <;> rfl
@[simp] theorem writeReg_stack (s : State) (i : Reg) (v : Word) : (writeReg s i v).stack = s.stack := by cases i <;> rfl
@[simp] theorem writeReg_sp (s : State) (i : Reg) (v : Word) : (writeReg s i v).sp = s.sp := by cases i <;> rfl
@[simp] theorem writeReg_out (s : State) (i : Reg) (v : Word) : (writeReg s i v).out = s.out := by cases i <;> rfl
@[simp] theorem writeReg_diag (s : State) (i : Reg) (v : Word) : (writeReg s i v).diag = s.diag := by cases i <;> rfl
@[simp] theorem writeReg_prog (s : State) (i : Reg) (v : Word) : (writeReg s i v).prog = s.prog := by cases i <;> rfl
@[simp] theorem writeReg_r1_r1 (s : State) (v : Word) : (writeReg s .r1 v).r1 = v := rfl
@[simp] theorem writeReg_r1_r2 (s : State) (v : Word) : (writeReg s .r1 v).r2 = s.r2 := rfl
@[simp] theorem writeReg_r2_r1 (s : State) (v : Word) : (writeReg s .r2 v).r1 = s.r1 := rfl
@[simp] theorem writeReg_r2_r2 (s : State) (v : Word) : (writeReg s .r2 v).r2 = v := rfl

/-- A register reads back what was written to it. -/
@[simp] theorem readReg_writeReg_same (s : State) (i : Reg) (v : Word) : readReg (writeReg s i v) i = v := by cases i <;> rfl

/-- Writing one register leaves the other alone. -/
theorem readReg_writeReg_other (s : State) (i j : Reg) (v : Word) (h : j ≠ i) :
    readReg (writeReg s i v) j = readReg s j := by
  cases i <;> cases j <;> first | rfl | exact absurd rfl h

/-! ### emit -/

@[simp] theorem emit_mode (l : Line) (s : State) : (emit l s).mode = s.mode := rfl
@[simp] theorem emit_pc (l : Line) (s : State) : (emit l s).pc = s.pc := rfl
@[simp] theorem emit_r1 (l : Line) (s : State) : (emit l s).r1 = s.r1 := rfl
@[simp] theorem emit_r2 (l : Line) (s : State) : (emit l s).r2 = s.r2 := rfl
@[simp] theorem emit_stack (l : Line) (s : State) : (emit l s).stack = s.stack := rfl
@[simp] theorem emit_sp (l : Line) (s : State) : (emit l s).sp = s.sp := rfl
@[simp] theorem emit_out (l : Line) (s : State) : (emit l s).out = s.out ++ [l] := rfl
@[simp] theorem emit_diag (l : Line) (s : State) : (emit l s).diag = s.diag := rfl
@[simp] theorem emit_prog (l : Line) (s : State) : (emit l s).prog = s.prog := rfl

/-! ### haltSuccess -/

@[simp] theorem haltSuccess_mode (s : State) : (haltSuccess s).mode = .halted .success := rfl
@[simp] theorem haltSuccess_pc (s : State) : (haltSuccess s).pc = s.pc := rfl
@[simp] theorem haltSuccess_r1 (s : State) : (haltSuccess s).r1 = s.r1 := rfl
@[simp] theorem haltSuccess_r2 (s : State) : (haltSuccess s).r2 = s.r2 := rfl
@[simp] theorem haltSuccess_stack (s : State) : (haltSuccess s).stack = s.stack := rfl
@[simp] theorem haltSuccess_sp (s : State) : (haltSuccess s).sp = s.sp := rfl
@[simp] theorem haltSuccess_out (s : State) : (haltSuccess s).out = s.out := rfl
@[simp] theorem haltSuccess_diag (s : State) : (haltSuccess s).diag = s.diag := rfl
@[simp] theorem haltSuccess_prog (s : State) : (haltSuccess s).prog = s.prog := rfl

/-! ### takeFatal -/

@[simp] theorem takeFatal_mode (s : State) (b : Option Byte) (k : FatalInfo) : (takeFatal s b k).mode = .halted .failure := rfl
@[simp] theorem takeFatal_pc (s : State) (b : Option Byte) (k : FatalInfo) : (takeFatal s b k).pc = s.pc := rfl
@[simp] theorem takeFatal_r1 (s : State) (b : Option Byte) (k : FatalInfo) : (takeFatal s b k).r1 = s.r1 := rfl
@[simp] theorem takeFatal_r2 (s : State) (b : Option Byte) (k : FatalInfo) : (takeFatal s b k).r2 = s.r2 := rfl
@[simp] theorem takeFatal_stack (s : State) (b : Option Byte) (k : FatalInfo) : (takeFatal s b k).stack = s.stack := rfl
@[simp] theorem takeFatal_sp (s : State) (b : Option Byte) (k : FatalInfo) : (takeFatal s b k).sp = s.sp := rfl
@[simp] theorem takeFatal_out (s : State) (b : Option Byte) (k : FatalInfo) : (takeFatal s b k).out = s.out := rfl
@[simp] theorem takeFatal_diag (s : State) (b : Option Byte) (k : FatalInfo) :
    (takeFatal s b k).diag = some (diagOf s.pc b k) := rfl
@[simp] theorem takeFatal_prog (s : State) (b : Option Byte) (k : FatalInfo) : (takeFatal s b k).prog = s.prog := rfl

end Sys2Proof.Machine
end

