-- ==== Sys2Proof/Laws/Stack.lean ====
section
/-! SUPPORT. What the stack primitives and the operand forms can do (20_memory.md R58, R59), said once. -/

namespace Sys2Proof.Machine

/-! ### Slots -/

/-- The slot that was written holds the value. -/
theorem slotAt_setSlot_same (st : Vector (Option Word) stackCap) (i : Int) (v : Word) (h0 : 0 ≤ i) (h1 : i < stackCap) :
    slotAt (setSlot st i v) i = some v := by
  have h : i.toNat < stackCap := by omega
  simp [slotAt, setSlot, h, not_lt.mpr h0]

/-- The other slots hold what they held. -/
theorem slotAt_setSlot_other (st : Vector (Option Word) stackCap) (i j : Int) (v : Word) (h0 : 0 ≤ i) (h : j ≠ i) :
    slotAt (setSlot st i v) j = slotAt st j := by
  unfold slotAt setSlot
  by_cases hj : j < 0
  · simp [hj]
  · have : i.toNat ≠ j.toNat := by omega
    simp [hj, this]

/-- A slot that holds a value exists. -/
theorem slotAt_some_inRange {st : Vector (Option Word) stackCap} {i : Int} {v : Word} (h : slotAt st i = some v) :
    0 ≤ i ∧ i < stackCap := by
  unfold slotAt at h
  split at h
  · cases h
  · rename_i hi
    refine ⟨by omega, ?_⟩
    by_contra hc
    have : ¬ i.toNat < stackCap := by omega
    rw [Vector.getElem?_eq_none (by omega)] at h
    cases h

/-- Writing back the value a slot holds changes nothing. -/
theorem setSlot_of_slotAt {st : Vector (Option Word) stackCap} {i : Int} {v : Word} (h : slotAt st i = some v) :
    setSlot st i v = st := by
  have hr := slotAt_some_inRange h
  have hi : i.toNat < stackCap := by omega
  have hv : st[i.toNat] = some v := by
    simpa [slotAt, not_lt.mpr hr.1, Vector.getElem?_eq_getElem hi] using h
  apply Vector.ext
  intro j hj
  simp only [setSlot, Vector.getElem_setIfInBounds hj]
  split
  · subst_vars
    exact hv.symm
  · rfl

/-! ### push and pop -/

theorem push_full {s : State} (v : Word) (h : s.sp = (stackCap : Int) - 1) : push v s = .error (.raise .stackOverflow) := by
  simp [push, h, raise]

theorem push_ok {s : State} (v : Word) (h0 : -1 ≤ s.sp) (h1 : s.sp < (stackCap : Int) - 1) : push v s = .ok (s.pushed v) := by
  rw [push, if_neg (by omega), if_pos (by omega)]

/-- Everything `push` can do. -/
theorem push_cases (v : Word) (s : State) :
    (s.sp = (stackCap : Int) - 1 ∧ push v s = .error (.raise .stackOverflow)) ∨
    (-1 ≤ s.sp ∧ s.sp < (stackCap : Int) - 1 ∧ push v s = .ok (s.pushed v)) ∨
    ((s.sp < -1 ∨ (stackCap : Int) ≤ s.sp) ∧ push v s = .error (.model .badPointer)) := by
  unfold push
  split
  · exact .inl ⟨‹_›, rfl⟩
  · split
    · exact .inr (.inl ⟨by omega, by omega, rfl⟩)
    · exact .inr (.inr ⟨by omega, rfl⟩)

theorem pop_empty {s : State} (h : s.sp = -1) : pop s = .error (.raise .stackUnderflow) := by
  simp [pop, h, raise]

theorem pop_ok {s : State} {v : Word} (h : s.slot s.sp = some v) : pop s = .ok (v, { s with sp := s.sp - 1 }) := by
  have := (slotAt_some_inRange h).1
  rw [pop, if_neg (by omega), h]

/-- Everything `pop` can do. -/
theorem pop_cases (s : State) :
    (s.sp = -1 ∧ pop s = .error (.raise .stackUnderflow)) ∨
    (∃ v, s.slot s.sp = some v ∧ pop s = .ok (v, { s with sp := s.sp - 1 })) ∨
    (s.sp ≠ -1 ∧ s.slot s.sp = none ∧ pop s = .error (.model .unsetSlot)) := by
  unfold pop
  split
  · exact .inl ⟨‹_›, rfl⟩
  · cases h : s.slot s.sp with
    | some v => exact .inr (.inl ⟨v, rfl, rfl⟩)
    | none => exact .inr (.inr ⟨‹_›, rfl, rfl⟩)

/-! ### The operand forms -/

theorem popPair_ok {s : State} {a b : Word} (hb : s.slot s.sp = some b) (ha : s.slot (s.sp - 1) = some a) :
    popPair s = .ok ((a, b), { s with sp := s.sp - 2 }) := by
  have h2 : pop { s with sp := s.sp - 1 } = .ok (a, { s with sp := s.sp - 1 - 1 }) := pop_ok (by exact ha)
  have e : s.sp - 1 - 1 = s.sp - 2 := by omega
  rw [e] at h2
  simp only [popPair, pop_ok hb, bind, Except.bind, h2, pure, Except.pure]

theorem popPair_short {s : State} (h : s.sp = -1 ∨ (s.sp = 0 ∧ ∃ v, s.slot 0 = some v)) :
    popPair s = .error (.raise .stackUnderflow) := by
  rcases h with h | ⟨h0, v, hv⟩
  · simp only [popPair, pop_empty h, bind, Except.bind]
  · have h1 : s.slot s.sp = some v := by rw [h0]; exact hv
    have h2 : pop { s with sp := s.sp - 1 } = .error (.raise .stackUnderflow) := pop_empty (by simp [h0])
    simp only [popPair, pop_ok h1, bind, Except.bind, h2]

/-- Everything `popPair` can do. -/
theorem popPair_cases (s : State) :
    (popPair s = .error (.raise .stackUnderflow) ∧ s.sp < 1) ∨
    (∃ a b, s.slot s.sp = some b ∧ s.slot (s.sp - 1) = some a ∧ popPair s = .ok ((a, b), { s with sp := s.sp - 2 })) ∨
    (popPair s = .error (.model .unsetSlot) ∧
      ((s.sp ≠ -1 ∧ s.slot s.sp = none) ∨ (s.sp ≠ 0 ∧ s.slot (s.sp - 1) = none))) := by
  rcases pop_cases s with ⟨h, _⟩ | ⟨b, hb, e⟩ | ⟨h, hn, e⟩
  · exact .inl ⟨popPair_short (.inl h), by omega⟩
  · rcases pop_cases { s with sp := s.sp - 1 } with ⟨h', _⟩ | ⟨a, ha, _⟩ | ⟨h', hn', e'⟩
    · have h0 : s.sp = 0 := by simpa using h'
      exact .inl ⟨popPair_short (.inr ⟨h0, b, by rw [← h0]; exact hb⟩), by omega⟩
    · exact .inr (.inl ⟨a, b, hb, ha, popPair_ok hb ha⟩)
    · refine .inr (.inr ⟨by simp only [popPair, e, bind, Except.bind, e'], .inr ⟨?_, hn'⟩⟩)
      intro h0
      exact h' (by simp [h0])
  · exact .inr (.inr ⟨by simp only [popPair, e, bind, Except.bind], .inl ⟨h, hn⟩⟩)

theorem popReg_ok {s : State} {v : Word} (i : Reg) (h : s.slot s.sp = some v) :
    popReg i s = .ok (writeReg { s with sp := s.sp - 1 } i v) := by
  simp only [popReg, pop_ok h, bind, Except.bind, pure, Except.pure]

theorem popReg_empty {s : State} (i : Reg) (h : s.sp = -1) : popReg i s = .error (.raise .stackUnderflow) := by
  simp only [popReg, pop_empty h, bind, Except.bind]

end Sys2Proof.Machine
end

