-- ==== Sys2Proof/Laws/Meanings.lean ====
section
/-! SUPPORT. What completing an instruction can do, what each meaning answers, and what the dispatcher's own conditions leave, said once
(41_dispatcher.md R122; 60_exceptions.md R202 to R206). -/

namespace Sys2Proof.Machine

/-! ### complete -/

theorem complete_ok {i : Instr} {s t : State} {effect : State → Eff State}
    (h : effect { s with pc := s.pc + i.length } = .ok t) : complete i s effect = .next t := by
  simp only [complete, h]

theorem complete_raise {i : Instr} {s : State} {effect : State → Eff State} {k : FatalInfo}
    (h : effect { s with pc := s.pc + i.length } = .error (.raise k)) :
    complete i s effect = .next (takeFatal s (some i.opcodeByte) k) := by
  simp only [complete, h]

/-- Everything `complete` can answer with a next state: the effect's state, or a fatal condition taken in the state before. -/
theorem complete_next {i : Instr} {s t : State} {effect : State → Eff State} (h : complete i s effect = .next t) :
    effect { s with pc := s.pc + i.length } = .ok t ∨
      ∃ k, effect { s with pc := s.pc + i.length } = .error (.raise k) ∧ t = takeFatal s (some i.opcodeByte) k := by
  unfold complete at h
  split at h
  · cases h; exact .inl ‹_›
  · cases h; exact .inr ⟨_, ‹_›, rfl⟩
  · cases h

/-- Completing an instruction never refuses. -/
theorem complete_ne_refused (i : Instr) (s : State) (effect : State → Eff State) (r : Refusal) :
    complete i s effect ≠ .refused r := by
  unfold complete
  split <;> simp

/-! ### The unit -/

theorem fpu_ok_of_ne_div {op : ArithOp} (a b : Word) (h : op ≠ .div) : ∃ r, fpu op a b = .ok r := by
  cases op <;> first | exact ⟨_, rfl⟩ | exact absurd rfl h

theorem fpu_div_ok {a b : Word} (h : isZeroDivisor b = false) : fpu .div a b = .ok (fdiv a b) := by
  simp [fpu, h]

theorem fpu_div_zero {a b : Word} (h : isZeroDivisor b = true) :
    fpu .div a b = .error (.raise (.divisionByZero a b)) := by
  simp [fpu, h, raise]

/-- Everything the unit can do. -/
theorem fpu_cases (op : ArithOp) (a b : Word) :
    (∃ r, fpu op a b = .ok r) ∨
      (op = .div ∧ isZeroDivisor b = true ∧ fpu op a b = .error (.raise (.divisionByZero a b))) := by
  cases op with
  | add => exact .inl ⟨_, rfl⟩
  | sub => exact .inl ⟨_, rfl⟩
  | mul => exact .inl ⟨_, rfl⟩
  | div =>
    cases h : isZeroDivisor b with
    | false => exact .inl ⟨_, fpu_div_ok h⟩
    | true => exact .inr ⟨rfl, rfl, fpu_div_zero h⟩

/-! ### The shared effects -/

theorem binaryEffect_ok {s : State} {op : ArithOp} {a b r : Word} (hb : s.slot s.sp = some b)
    (ha : s.slot (s.sp - 1) = some a) (hr : fpu op a b = .ok r) :
    binaryEffect op s = .ok { s with sp := s.sp - 1, stack := setSlot s.stack (s.sp - 1) r } := by
  have h1 := slotAt_some_inRange ha
  have h2 := slotAt_some_inRange hb
  have hp : push r { s with sp := s.sp - 2 } = .ok (State.pushed { s with sp := s.sp - 2 } r) :=
    push_ok r (by simp only; omega) (by simp only; omega)
  have e : s.sp - 2 + 1 = s.sp - 1 := by omega
  simp only [binaryEffect, popPair_ok hb ha, bind, Except.bind, hr, hp, State.pushed, e]

theorem binaryEffect_short {s : State} {op : ArithOp} (h : s.sp = -1 ∨ (s.sp = 0 ∧ ∃ v, s.slot 0 = some v)) :
    binaryEffect op s = .error (.raise .stackUnderflow) := by
  simp only [binaryEffect, popPair_short h, bind, Except.bind]

theorem binaryEffect_raise {s : State} {op : ArithOp} {a b : Word} {k : FatalInfo} (hb : s.slot s.sp = some b)
    (ha : s.slot (s.sp - 1) = some a) (hr : fpu op a b = .error (.raise k)) :
    binaryEffect op s = .error (.raise k) := by
  simp only [binaryEffect, popPair_ok hb ha, bind, Except.bind, hr]

/-- Everything a binary instruction can do. -/
theorem binaryEffect_cases (op : ArithOp) (s : State) :
    (binaryEffect op s = .error (.raise .stackUnderflow) ∧ s.sp < 1) ∨
    (∃ a b r, s.slot s.sp = some b ∧ s.slot (s.sp - 1) = some a ∧ fpu op a b = .ok r ∧
      binaryEffect op s = .ok { s with sp := s.sp - 1, stack := setSlot s.stack (s.sp - 1) r }) ∨
    (∃ a b, s.slot s.sp = some b ∧ s.slot (s.sp - 1) = some a ∧ op = .div ∧ isZeroDivisor b = true ∧
      binaryEffect op s = .error (.raise (.divisionByZero a b))) ∨
    (binaryEffect op s = .error (.model .unsetSlot) ∧
      ((s.sp ≠ -1 ∧ s.slot s.sp = none) ∨ (s.sp ≠ 0 ∧ s.slot (s.sp - 1) = none))) := by
  rcases popPair_cases s with ⟨e, h⟩ | ⟨a, b, hb, ha, _⟩ | ⟨e, h⟩
  · exact .inl ⟨by simp only [binaryEffect, e, bind, Except.bind], h⟩
  · rcases fpu_cases op a b with ⟨r, hr⟩ | ⟨ho, hz, hr⟩
    · exact .inr (.inl ⟨a, b, r, hb, ha, hr, binaryEffect_ok hb ha hr⟩)
    · exact .inr (.inr (.inl ⟨a, b, hb, ha, ho, hz, binaryEffect_raise hb ha hr⟩))
  · exact .inr (.inr (.inr ⟨by simp only [binaryEffect, e, bind, Except.bind], h⟩))

theorem negEffect_ok {s : State} {b : Word} (hb : s.slot s.sp = some b) :
    negEffect s = .ok { s with stack := setSlot s.stack s.sp (fneg b) } := by
  have h := slotAt_some_inRange hb
  have hp : push (fneg b) { s with sp := s.sp - 1 } = .ok (State.pushed { s with sp := s.sp - 1 } (fneg b)) :=
    push_ok _ (by simp only; omega) (by simp only; omega)
  have e : s.sp - 1 + 1 = s.sp := by omega
  simp only [negEffect, pop_ok hb, bind, Except.bind, hp, State.pushed, e]

theorem negEffect_empty {s : State} (h : s.sp = -1) : negEffect s = .error (.raise .stackUnderflow) := by
  simp only [negEffect, pop_empty h, bind, Except.bind]

theorem printEffect_ok {s : State} {x : Word} (h : s.slot s.sp = some x) :
    printEffect s = .ok (emit (fmt6 x) { s with sp := s.sp - 1 }) := by
  simp only [printEffect, pop_ok h, bind, Except.bind, pure, Except.pure]

theorem printEffect_empty {s : State} (h : s.sp = -1) : printEffect s = .error (.raise .stackUnderflow) := by
  simp only [printEffect, pop_empty h, bind, Except.bind]

/-- Everything MOV can do. -/
theorem moveReg_cases (src dst : BitVec 4) (s : State) :
    (src = 1#4 ∧ dst = 2#4 ∧ moveReg src dst s = .ok { s with r2 := s.r1 }) ∨
    (src = 2#4 ∧ dst = 1#4 ∧ moveReg src dst s = .ok { s with r1 := s.r2 }) ∨
    (legalPair src dst = false ∧ moveReg src dst s = .error (.raise (.invalidArgument (movByte src dst)))) := by
  unfold moveReg movRegs
  by_cases h1 : src = 1#4 ∧ dst = 2#4
  · exact .inl ⟨h1.1, h1.2, by rw [if_pos h1]; rfl⟩
  · by_cases h2 : src = 2#4 ∧ dst = 1#4
    · exact .inr (.inl ⟨h2.1, h2.2, by rw [if_neg h1, if_pos h2]; rfl⟩)
    · refine .inr (.inr ⟨?_, by rw [if_neg h1, if_neg h2]; rfl⟩)
      simp only [legalPair, Bool.or_eq_false_iff, Bool.and_eq_false_iff, beq_eq_false_iff_ne]
      exact ⟨by tauto, by tauto⟩

/-! ### exec -/

/-- The effect of an instruction, the part of its meaning that `complete` runs. -/
def effectOf : Instr → State → Eff State
  | .halt => fun t => .ok (haltSuccess t)
  | .nop => fun t => .ok t
  | .dconstM1 => push 0xBFF0000000000000#64
  | .dconst0 => push 0x0000000000000000#64
  | .dconst1 => push 0x3FF0000000000000#64
  | .dconst2 => push 0x4000000000000000#64
  | .dconst lit => push lit
  | .add => binaryEffect .add
  | .sub => binaryEffect .sub
  | .mul => binaryEffect .mul
  | .div => binaryEffect .div
  | .neg => negEffect
  | .st1 => popReg .r1
  | .st2 => popReg .r2
  | .ld1 => pushReg .r1
  | .ld2 => pushReg ld2Source
  | .print => printEffect
  | .mov src dst => moveReg src dst

/-- Every meaning completes its effect. -/
theorem exec_eq_complete (i : Instr) (s : State) : exec i s = complete i s (effectOf i) := by
  cases i <;> rfl

theorem exec_ok {i : Instr} {s t : State} (h : effectOf i { s with pc := s.pc + i.length } = .ok t) : exec i s = .next t := by
  rw [exec_eq_complete]
  exact complete_ok h

theorem exec_raise {i : Instr} {s : State} {k : FatalInfo}
    (h : effectOf i { s with pc := s.pc + i.length } = .error (.raise k)) :
    exec i s = .next (takeFatal s (some i.opcodeByte) k) := by
  rw [exec_eq_complete]
  exact complete_raise h

/-- An instruction that pushes a pattern, with room on the stack. -/
theorem exec_push {i : Instr} {s : State} {v : Word} (hi : effectOf i = push v) (h0 : -1 ≤ s.sp)
    (h1 : s.sp < (stackCap : Int) - 1) :
    exec i s = .next { s with pc := s.pc + i.length, sp := s.sp + 1, stack := setSlot s.stack (s.sp + 1) v } := by
  refine exec_ok ?_
  rw [hi]
  exact push_ok v h0 h1

/-- An instruction that pushes a register, with room on the stack. -/
theorem exec_pushReg {i : Instr} {s : State} {r : Reg} (hi : effectOf i = pushReg r) (h0 : -1 ≤ s.sp)
    (h1 : s.sp < (stackCap : Int) - 1) :
    exec i s =
      .next { s with pc := s.pc + i.length, sp := s.sp + 1, stack := setSlot s.stack (s.sp + 1) (readReg s r) } := by
  refine exec_ok ?_
  rw [hi]
  have e : readReg { s with pc := s.pc + i.length } r = readReg s r := by cases r <;> rfl
  rw [pushReg, e]
  exact push_ok _ h0 h1

/-- An instruction that pops into a register, with a value on the stack. -/
theorem exec_popReg {i : Instr} {s : State} {r : Reg} {v : Word} (hi : effectOf i = popReg r) (h : s.slot s.sp = some v) :
    exec i s = .next (writeReg { s with pc := s.pc + i.length, sp := s.sp - 1 } r v) := by
  refine exec_ok ?_
  rw [hi]
  exact popReg_ok r h

/-- A binary instruction whose operands are there and whose unit gives a result. -/
theorem exec_binary {i : Instr} {s : State} {op : ArithOp} {a b r : Word} (hi : effectOf i = binaryEffect op)
    (hb : s.slot s.sp = some b) (ha : s.slot (s.sp - 1) = some a) (hr : fpu op a b = .ok r) :
    exec i s = .next { s with pc := s.pc + i.length, sp := s.sp - 1, stack := setSlot s.stack (s.sp - 1) r } := by
  refine exec_ok ?_
  rw [hi]
  exact binaryEffect_ok hb ha hr

/-- NEG with a value on the stack. -/
theorem exec_neg {s : State} {b : Word} (h : s.slot s.sp = some b) :
    exec .neg s = .next { s with pc := s.pc + 1, stack := setSlot s.stack s.sp (fneg b) } :=
  exec_ok (negEffect_ok h)

/-- PRINT with a value on the stack. -/
theorem exec_print {s : State} {x : Word} (h : s.slot s.sp = some x) :
    exec .print s = .next { s with pc := s.pc + 1, sp := s.sp - 1, out := s.out ++ [fmt6 x] } :=
  exec_ok (printEffect_ok h)

/-- Everything an instruction can answer with a next state. -/
theorem exec_next {i : Instr} {s t : State} (h : exec i s = .next t) :
    effectOf i { s with pc := s.pc + i.length } = .ok t ∨
      ∃ k, effectOf i { s with pc := s.pc + i.length } = .error (.raise k) ∧ t = takeFatal s (some i.opcodeByte) k := by
  rw [exec_eq_complete] at h
  exact complete_next h

/-- No instruction is refused. -/
theorem exec_ne_refused (i : Instr) (s : State) (r : Refusal) : exec i s ≠ .refused r := by
  rw [exec_eq_complete]
  exact complete_ne_refused i s _ r

end Sys2Proof.Machine
end

