-- ==== Sys2Proof/Laws/Effects.lean ====
section
/-! SUPPORT. What an instruction's effect does to each field, said once for all instructions: its shape on the stack, what it keeps,
and when it raises. The whole-block statements follow from these by cases on the outcome, not on the instruction. -/

namespace Sys2Proof

open Sys2Proof.Machine

/-- The four shapes of an effect: dispatcher and MOV (the stack untouched), push one, pop one, pop two and push one. -/
theorem effectOf_shape (i : Instr) :
    (pops i = 0 ∧ pushes i = 0 ∧ (i = .halt ∨ i = .nop ∨ ∃ src dst, i = .mov src dst)) ∨
    (pops i = 0 ∧ pushes i = 1 ∧ ∃ v : State → Word, (∀ s p, v { s with pc := p } = v s) ∧ ∀ s, effectOf i s = push (v s) s) ∨
    (pops i = 1 ∧ pushes i = 0 ∧ ((∃ r, effectOf i = popReg r) ∨ i = .print)) ∨
    (pops i = 1 ∧ pushes i = 1 ∧ i = .neg) ∨
    (pops i = 2 ∧ pushes i = 1 ∧ ∃ op, effectOf i = binaryEffect op ∧ (op = .div ↔ i = .div)) := by
  cases i with
  | halt => exact .inl ⟨rfl, rfl, .inl rfl⟩
  | nop => exact .inl ⟨rfl, rfl, .inr (.inl rfl)⟩
  | mov src dst => exact .inl ⟨rfl, rfl, .inr (.inr ⟨src, dst, rfl⟩)⟩
  | dconstM1 => exact .inr (.inl ⟨rfl, rfl, fun _ => _, fun _ _ => rfl, fun _ => rfl⟩)
  | dconst0 => exact .inr (.inl ⟨rfl, rfl, fun _ => _, fun _ _ => rfl, fun _ => rfl⟩)
  | dconst1 => exact .inr (.inl ⟨rfl, rfl, fun _ => _, fun _ _ => rfl, fun _ => rfl⟩)
  | dconst2 => exact .inr (.inl ⟨rfl, rfl, fun _ => _, fun _ _ => rfl, fun _ => rfl⟩)
  | dconst lit => exact .inr (.inl ⟨rfl, rfl, fun _ => lit, fun _ _ => rfl, fun _ => rfl⟩)
  | ld1 => exact .inr (.inl ⟨rfl, rfl, fun s => readReg s .r1, fun _ _ => rfl, fun _ => rfl⟩)
  | ld2 =>
    refine .inr (.inl ⟨rfl, rfl, fun s => readReg s ld2Source, fun s p => ?_, fun _ => rfl⟩)
    simp only [readReg]
  | st1 => exact .inr (.inr (.inl ⟨rfl, rfl, .inl ⟨.r1, rfl⟩⟩))
  | st2 => exact .inr (.inr (.inl ⟨rfl, rfl, .inl ⟨.r2, rfl⟩⟩))
  | print => exact .inr (.inr (.inl ⟨rfl, rfl, .inr rfl⟩))
  | neg => exact .inr (.inr (.inr (.inl ⟨rfl, rfl, rfl⟩)))
  | add => exact .inr (.inr (.inr (.inr ⟨rfl, rfl, .add, rfl, by simp⟩)))
  | sub => exact .inr (.inr (.inr (.inr ⟨rfl, rfl, .sub, rfl, by simp⟩)))
  | mul => exact .inr (.inr (.inr (.inr ⟨rfl, rfl, .mul, rfl, by simp⟩)))
  | div => exact .inr (.inr (.inr (.inr ⟨rfl, rfl, .div, rfl, by simp⟩)))

/-- What the state `t` of a completed effect is, seen from the state `s` the effect ran in. -/
structure Yields (i : Instr) (s t : State) : Prop where
  pc : t.pc = s.pc
  prog : t.prog = s.prog
  diag : t.diag = s.diag
  mode : t.mode = if i = .halt then .halted .success else s.mode
  sp : t.sp = s.sp - pops i + pushes i
  legal : i.wellFormed = true
  enough : 0 < pops i → (pops i : Int) ≤ s.sp + 1
  room : pushes i = 1 → 0 ≤ t.sp ∧ t.sp < stackCap
  kept : pushes i = 0 → t.stack = s.stack
  top : pushes i = 1 → ∃ v, t.stack = setSlot s.stack t.sp v

theorem effectOf_yields {i : Instr} {s t : State} (h : effectOf i s = .ok t) : Yields i s t := by
  rcases effectOf_shape i with ⟨hp, hq, hi⟩ | ⟨hp, hq, v, -, hv⟩ | ⟨hp, hq, hi⟩ | ⟨hp, hq, rfl⟩ | ⟨hp, hq, op, hop, hdiv⟩
  · rcases hi with rfl | rfl | ⟨src, dst, rfl⟩
    · cases h
      exact ⟨rfl, rfl, rfl, rfl, by simp [pops, pushes], rfl, by simp [pops], by simp [pushes], fun _ => rfl, by simp [pushes]⟩
    · cases h
      exact ⟨rfl, rfl, rfl, rfl, by simp [pops, pushes], rfl, by simp [pops], by simp [pushes], fun _ => rfl, by simp [pushes]⟩
    · rcases moveReg_cases src dst s with ⟨rfl, rfl, e⟩ | ⟨rfl, rfl, e⟩ | ⟨_, e⟩
      · rw [effectOf, e] at h
        cases h
        exact ⟨rfl, rfl, rfl, rfl, by simp [pops, pushes], rfl, by simp [pops], by simp [pushes], fun _ => rfl, by simp [pushes]⟩
      · rw [effectOf, e] at h
        cases h
        exact ⟨rfl, rfl, rfl, rfl, by simp [pops, pushes], rfl, by simp [pops], by simp [pushes], fun _ => rfl, by simp [pushes]⟩
      · rw [effectOf, e] at h
        cases h
  · have hwf : i.wellFormed = true ∧ i ≠ .halt := by cases i <;> simp [pushes] at hq <;> simp [Instr.wellFormed]
    rcases push_cases (v s) s with ⟨_, e⟩ | ⟨h0, h1, e⟩ | ⟨_, e⟩ <;> rw [hv, e] at h <;> cases h
    exact ⟨rfl, rfl, rfl, by rw [if_neg hwf.2]; rfl, by simp [hp, hq], hwf.1, by simp [hp],
      fun _ => ⟨by simp only [pushed_sp]; omega, by simp only [pushed_sp]; omega⟩, by simp [hq], fun _ => ⟨v s, rfl⟩⟩
  · have hwf : i.wellFormed = true ∧ i ≠ .halt := by cases i <;> simp [pops] at hp <;> simp [Instr.wellFormed]
    rcases hi with ⟨r, hr⟩ | rfl
    · rcases pop_cases s with ⟨hs, _⟩ | ⟨v, hs, _⟩ | ⟨_, _, e⟩
      · rw [hr, popReg_empty r hs] at h
        cases h
      · rw [hr, popReg_ok r hs] at h
        cases h
        have := slotAt_some_inRange hs
        exact ⟨by simp, by simp, by simp, by simp [hwf.2], by simp [hp, hq], hwf.1, fun _ => by rw [hp]; omega,
          by simp [hq], fun _ => by simp, by simp [hq]⟩
      · rw [hr, popReg] at h
        simp only [e, bind, Except.bind] at h
        cases h
    · rcases pop_cases s with ⟨hs, _⟩ | ⟨v, hs, _⟩ | ⟨_, _, e⟩
      · rw [effectOf, printEffect_empty hs] at h
        cases h
      · rw [effectOf, printEffect_ok hs] at h
        cases h
        have := slotAt_some_inRange hs
        exact ⟨rfl, rfl, rfl, rfl, by simp [hp, hq], rfl, fun _ => by rw [hp]; omega, by simp [hq], fun _ => rfl, by simp [hq]⟩
      · rw [effectOf, printEffect] at h
        simp only [e, bind, Except.bind] at h
        cases h
  · rcases pop_cases s with ⟨hs, _⟩ | ⟨v, hs, _⟩ | ⟨_, _, e⟩
    · rw [effectOf, negEffect_empty hs] at h
      cases h
    · rw [effectOf, negEffect_ok hs] at h
      cases h
      have := slotAt_some_inRange hs
      exact ⟨rfl, rfl, rfl, rfl, by simp [hp, hq], rfl, fun _ => by rw [hp]; omega, fun _ => this, by simp [hq],
        fun _ => ⟨fneg v, rfl⟩⟩
    · rw [effectOf, negEffect] at h
      simp only [e, bind, Except.bind] at h
      cases h
  · have hwf : i.wellFormed = true ∧ i ≠ .halt := by cases i <;> simp [pops] at hp <;> simp [Instr.wellFormed]
    rcases binaryEffect_cases op s with ⟨e, _⟩ | ⟨a, b, r, hb, ha, _, e⟩ | ⟨_, _, _, _, _, _, e⟩ | ⟨e, _⟩ <;>
      rw [hop, e] at h <;> cases h
    have h1 := slotAt_some_inRange ha
    exact ⟨rfl, rfl, rfl, by rw [if_neg hwf.2], by simp only [hp, hq]; omega, hwf.1, fun _ => by rw [hp]; omega,
      fun _ => h1, by simp [hq], fun _ => ⟨r, rfl⟩⟩

/-- When an effect raises, and what (60_exceptions.md R200). -/
def RaisesOn (i : Instr) (s : State) : FatalInfo → Prop
  | .divisionByZero a b =>
    i = .div ∧ s.slot s.sp = some b ∧ s.slot (s.sp - 1) = some a ∧ isZeroDivisor b = true
  | .invalidOpcode => False
  | .invalidArgument m => ∃ src dst, i = .mov src dst ∧ i.wellFormed = false ∧ m = movByte src dst
  | .stackOverflow => pops i = 0 ∧ pushes i = 1 ∧ s.sp = (stackCap : Int) - 1
  | .stackUnderflow => (pops i = 1 ∧ s.sp = -1) ∨ (pops i = 2 ∧ s.sp < 1)
  | .programOverrun => False

theorem effectOf_raises {i : Instr} {s : State} {k : FatalInfo} (h : effectOf i s = .error (.raise k)) : RaisesOn i s k := by
  rcases effectOf_shape i with ⟨hp, hq, hi⟩ | ⟨hp, hq, v, -, hv⟩ | ⟨hp, hq, hi⟩ | ⟨hp, hq, rfl⟩ | ⟨hp, hq, op, hop, hdiv⟩
  · rcases hi with rfl | rfl | ⟨src, dst, rfl⟩
    · cases h
    · cases h
    · rcases moveReg_cases src dst s with ⟨_, _, e⟩ | ⟨_, _, e⟩ | ⟨hl, e⟩ <;> rw [effectOf, e] at h <;> cases h
      exact ⟨src, dst, rfl, hl, rfl⟩
  · rcases push_cases (v s) s with ⟨hs, e⟩ | ⟨_, _, e⟩ | ⟨_, e⟩ <;> rw [hv, e] at h <;> cases h
    exact ⟨hp, hq, hs⟩
  · rcases pop_cases s with ⟨hs, _⟩ | ⟨v, hs, _⟩ | ⟨_, _, e⟩ <;> rcases hi with ⟨r, hr⟩ | rfl
    · rw [hr, popReg_empty r hs] at h
      cases h
      exact .inl ⟨hp, hs⟩
    · rw [effectOf, printEffect_empty hs] at h
      cases h
      exact .inl ⟨hp, hs⟩
    · rw [hr, popReg_ok r hs] at h
      cases h
    · rw [effectOf, printEffect_ok hs] at h
      cases h
    · rw [hr, popReg] at h
      simp only [e, bind, Except.bind] at h
      cases h
    · rw [effectOf, printEffect] at h
      simp only [e, bind, Except.bind] at h
      cases h
  · rcases pop_cases s with ⟨hs, _⟩ | ⟨v, hs, _⟩ | ⟨_, _, e⟩
    · rw [effectOf, negEffect_empty hs] at h
      cases h
      exact .inl ⟨hp, hs⟩
    · rw [effectOf, negEffect_ok hs] at h
      cases h
    · rw [effectOf, negEffect] at h
      simp only [e, bind, Except.bind] at h
      cases h
  · rcases binaryEffect_cases op s with ⟨e, hs⟩ | ⟨_, _, _, _, _, _, e⟩ | ⟨a, b, hb, ha, ho, hz, e⟩ | ⟨e, _⟩ <;>
      rw [hop, e] at h <;> cases h
    · exact .inr ⟨hp, hs⟩
    · exact ⟨hdiv.mp ho, hb, ha, hz⟩

/-- The model stops only in states that break the bounds of `sp` or hold an unset slot at or below it. -/
theorem effectOf_never_stops {i : Instr} {s : State} (hsp : SpInRange s) (hsl : SlotsHoldValues s) (f : Fault) :
    effectOf i s ≠ .error (.model f) := by
  intro h
  obtain ⟨hlo, hhi⟩ := hsp
  have hslot : ∀ j : Int, 0 ≤ j → j ≤ s.sp → s.slot j ≠ none := fun j h0 h1 hn => by
    obtain ⟨v, hv⟩ := hsl j h0 h1
    rw [hn] at hv
    cases hv
  rcases effectOf_shape i with ⟨hp, hq, hi⟩ | ⟨hp, hq, v, -, hv⟩ | ⟨hp, hq, hi⟩ | ⟨hp, hq, rfl⟩ | ⟨hp, hq, op, hop, hdiv⟩
  · rcases hi with rfl | rfl | ⟨src, dst, rfl⟩
    · cases h
    · cases h
    · rcases moveReg_cases src dst s with ⟨_, _, e⟩ | ⟨_, _, e⟩ | ⟨hl, e⟩ <;> rw [effectOf, e] at h <;> cases h
  · rcases push_cases (v s) s with ⟨_, e⟩ | ⟨_, _, e⟩ | ⟨hs, e⟩ <;> rw [hv, e] at h <;> cases h
    omega
  · rcases pop_cases s with ⟨hs, _⟩ | ⟨v, hs, _⟩ | ⟨hs, hn, e⟩
    · rcases hi with ⟨r, hr⟩ | rfl
      · rw [hr, popReg_empty r hs] at h
        cases h
      · rw [effectOf, printEffect_empty hs] at h
        cases h
    · rcases hi with ⟨r, hr⟩ | rfl
      · rw [hr, popReg_ok r hs] at h
        cases h
      · rw [effectOf, printEffect_ok hs] at h
        cases h
    · exact hslot _ (by omega) (le_refl _) hn
  · rcases pop_cases s with ⟨hs, _⟩ | ⟨v, hs, _⟩ | ⟨hs, hn, e⟩
    · rw [effectOf, negEffect_empty hs] at h
      cases h
    · rw [effectOf, negEffect_ok hs] at h
      cases h
    · exact hslot _ (by omega) (le_refl _) hn
  · rcases binaryEffect_cases op s with ⟨e, _⟩ | ⟨_, _, _, _, _, _, e⟩ | ⟨_, _, _, _, _, _, e⟩ | ⟨e, ⟨hs, hn⟩ | ⟨hs, hn⟩⟩ <;>
      rw [hop] at h
    · rw [e] at h; cases h
    · rw [e] at h; cases h
    · rw [e] at h; cases h
    · exact hslot _ (by omega) (le_refl _) hn
    · by_cases h0 : s.sp = -1
      · rw [binaryEffect_short (.inl h0)] at h
        cases h
      · exact hslot _ (by omega) (by omega) hn

end Sys2Proof
end

