-- ==== Sys2Proof/Laws/Memory.lean ====
section
/-! SUPPORT. The program store: reads after the host's stores, the canonical form, and the bounds of a read (20_memory.md R53). -/

namespace Sys2Proof.Machine

/-! ### Reads and stores -/

theorem Memory.read_store_same (m : Memory) (i : Nat) (b : Byte) : (m.store i b).read i = some b := by
  induction m with
  | nil => simp [Memory.store, Memory.read]
  | cons c rest ih =>
    obtain ⟨k, c⟩ := c
    simp only [Memory.store]
    split
    · simp [Memory.read]
    · split
      · simp [Memory.read]
      · rename_i h1 h2
        simp [Memory.read, Ne.symm h2, ih]

theorem Memory.read_store_other (m : Memory) (i j : Nat) (b : Byte) (h : j ≠ i) : (m.store i b).read j = m.read j := by
  induction m with
  | nil => simp [Memory.store, Memory.read, Ne.symm h]
  | cons c rest ih =>
    obtain ⟨k, c⟩ := c
    simp only [Memory.store]
    split
    · simp [Memory.read, Ne.symm h]
    · split
      · subst_vars
        simp [Memory.read, Ne.symm h]
      · simp only [Memory.read, ih]

theorem Memory.read_storeBytes (m : Memory) (i : Nat) (bytes : List Byte) (j : Nat) :
    (m.storeBytes i bytes).read j = if i ≤ j ∧ j < i + bytes.length then bytes[j - i]? else m.read j := by
  induction bytes generalizing m i with
  | nil => simp only [Memory.storeBytes, List.length_nil]; rw [if_neg (by omega)]
  | cons b rest ih =>
    rw [Memory.storeBytes, ih, List.length_cons]
    by_cases h : j = i
    · subst h
      rw [if_neg (by omega), if_pos (by omega), Memory.read_store_same]
      simp
    · rw [Memory.read_store_other _ _ _ _ h]
      by_cases h2 : i + 1 ≤ j ∧ j < i + 1 + rest.length
      · rw [if_pos h2, if_pos (by omega)]
        have : j - i = (j - (i + 1)) + 1 := by omega
        rw [this, List.getElem?_cons_succ]
      · rw [if_neg h2, if_neg (by omega)]

/-! ### The canonical form -/

theorem Memory.risingFrom_mono {m : Memory} {a b : Nat} (hab : a ≤ b) (h : m.risingFrom b = true) :
    m.risingFrom a = true := by
  cases m with
  | nil => rfl
  | cons c rest =>
    obtain ⟨k, c⟩ := c
    simp only [Memory.risingFrom, Bool.and_eq_true, decide_eq_true_eq] at h ⊢
    exact ⟨by omega, h.2⟩

theorem Memory.risingFrom_store {m : Memory} {low : Nat} (i : Nat) (b : Byte) (hi : low ≤ i)
    (h : m.risingFrom low = true) : (m.store i b).risingFrom low = true := by
  induction m generalizing low with
  | nil => simp [Memory.store, Memory.risingFrom, hi]
  | cons c rest ih =>
    obtain ⟨k, c⟩ := c
    simp only [Memory.risingFrom, Bool.and_eq_true, decide_eq_true_eq] at h
    simp only [Memory.store]
    split
    · simp only [Memory.risingFrom, Bool.and_eq_true, decide_eq_true_eq]
      exact ⟨hi, by omega, h.2⟩
    · split
      · subst_vars
        simp only [Memory.risingFrom, Bool.and_eq_true, decide_eq_true_eq]
        exact ⟨hi, h.2⟩
      · simp only [Memory.risingFrom, Bool.and_eq_true, decide_eq_true_eq]
        exact ⟨h.1, ih (by omega) h.2⟩

/-- A store keeps the canonical form. -/
theorem Memory.wf_store {m : Memory} (i : Nat) (b : Byte) (h : m.wf = true) : (m.store i b).wf = true :=
  Memory.risingFrom_store i b (Nat.zero_le _) h

/-- Storing bytes keeps the canonical form. -/
theorem Memory.wf_storeBytes {m : Memory} (i : Nat) (bytes : List Byte) (h : m.wf = true) :
    (m.storeBytes i bytes).wf = true := by
  induction bytes generalizing m i with
  | nil => exact h
  | cons b rest ih => exact ih (i + 1) (Memory.wf_store i b h)

theorem reset_program_wf : Memory.wf State.reset.prog = true := rfl

/-- Below its first index a rising store holds nothing. -/
theorem Memory.read_lt_of_risingFrom {m : Memory} {low i : Nat} (h : m.risingFrom low = true) (hi : i < low) :
    m.read i = none := by
  induction m generalizing low with
  | nil => rfl
  | cons c rest ih =>
    obtain ⟨k, c⟩ := c
    simp only [Memory.risingFrom, Bool.and_eq_true, decide_eq_true_eq] at h
    simp only [Memory.read]
    rw [if_neg (by omega)]
    exact ih h.2 (by omega)

theorem Memory.eq_of_read_eq_from {m n : Memory} {low : Nat} (hm : m.risingFrom low = true) (hn : n.risingFrom low = true)
    (h : ∀ i, m.read i = n.read i) : m = n := by
  induction m generalizing n low with
  | nil =>
    cases n with
    | nil => rfl
    | cons c rest => simpa [Memory.read] using h c.1
  | cons c rest ih =>
    obtain ⟨k, b⟩ := c
    simp only [Memory.risingFrom, Bool.and_eq_true, decide_eq_true_eq] at hm
    cases n with
    | nil => simpa [Memory.read] using h k
    | cons d tail =>
      obtain ⟨j, e⟩ := d
      simp only [Memory.risingFrom, Bool.and_eq_true, decide_eq_true_eq] at hn
      have hkj : k = j := by
        rcases Nat.lt_trichotomy k j with hlt | heq | hgt
        · have h1 := Memory.read_lt_of_risingFrom (i := k) hn.2 (by omega)
          simpa [Memory.read, Nat.ne_of_gt hlt, h1] using h k
        · exact heq
        · have h1 := Memory.read_lt_of_risingFrom (i := j) hm.2 (by omega)
          simpa [Memory.read, Nat.ne_of_gt hgt, h1] using h j
      subst hkj
      have hbe : b = e := by simpa [Memory.read] using h k
      subst hbe
      congr 1
      refine ih hm.2 hn.2 (fun i => ?_)
      by_cases hi : k = i
      · subst hi
        rw [Memory.read_lt_of_risingFrom hm.2 (by omega), Memory.read_lt_of_risingFrom hn.2 (by omega)]
      · simpa [Memory.read, hi] using h i

/-- Equal memories are equal data: in the canonical form, two stores that read the same at every index are the same list. -/
theorem Memory.eq_of_read_eq {m n : Memory} (hm : m.wf = true) (hn : n.wf = true) (h : ∀ i, m.read i = n.read i) : m = n :=
  Memory.eq_of_read_eq_from hm hn h

/-! ### Dense stores -/

theorem Memory.denseFrom_rising {m : Memory} {low : Nat} (h : m.denseFrom low = true) : m.risingFrom low = true := by
  induction m generalizing low with
  | nil => rfl
  | cons c rest ih =>
    obtain ⟨k, c⟩ := c
    simp only [Memory.denseFrom, Bool.and_eq_true, decide_eq_true_eq] at h
    simp only [Memory.risingFrom, Bool.and_eq_true, decide_eq_true_eq]
    obtain ⟨rfl, h⟩ := h
    exact ⟨le_refl _, ih h⟩

theorem Memory.extent_denseFrom {m : Memory} {low : Nat} (h : m.denseFrom low = true) :
    m.extent = if m.length = 0 then 0 else low + m.length := by
  induction m generalizing low with
  | nil => rfl
  | cons c rest ih =>
    obtain ⟨k, c⟩ := c
    simp only [Memory.denseFrom, Bool.and_eq_true, decide_eq_true_eq] at h
    obtain ⟨rfl, h⟩ := h
    rw [Memory.extent, ih h]
    simp only [List.length_cons]
    split <;> rw [if_neg (by omega)] <;> omega

/-- A dense store has as many bytes as its length says. -/
theorem Memory.extent_dense {m : Memory} (h : m.dense = true) : m.extent = m.length := by
  rw [Memory.extent_denseFrom h]
  split <;> omega

theorem Memory.read_denseFrom {m : Memory} {low : Nat} (h : m.denseFrom low = true) (i : Nat) :
    m.read (low + i) = (m[i]?).map Prod.snd := by
  induction m generalizing low i with
  | nil => rfl
  | cons c rest ih =>
    obtain ⟨k, c⟩ := c
    simp only [Memory.denseFrom, Bool.and_eq_true, decide_eq_true_eq] at h
    obtain ⟨rfl, h⟩ := h
    simp only [Memory.read]
    cases i with
    | zero => simp
    | succ i =>
      rw [if_neg (by omega)]
      have := ih h i
      rw [show k + (i + 1) = k + 1 + i by omega, this]
      simp

/-- The cells of a program input. -/
theorem Memory.storeBytes_append (m : Memory) (n : Nat) (bytes : List Byte)
    (h : ∀ c ∈ m, c.1 < n) :
    m.storeBytes n bytes = m ++ (bytes.zipIdx n).map (fun p => (p.2, p.1)) := by
  induction bytes generalizing m n with
  | nil => simp [Memory.storeBytes]
  | cons b rest ih =>
    have hs : m.store n b = m ++ [(n, b)] := by
      clear ih
      induction m with
      | nil => rfl
      | cons c tail ihm =>
        obtain ⟨k, c⟩ := c
        have hk : k < n := h (k, c) (by simp)
        simp only [Memory.store]
        rw [if_neg (by omega), if_neg (by omega), ihm (fun c hc => h c (by simp [hc]))]
        rfl
    rw [Memory.storeBytes, hs, ih]
    · simp
    · intro c hc
      rcases List.mem_append.mp hc with hc | hc
      · have := h c hc; omega
      · simp only [List.mem_singleton] at hc
        subst hc
        simp

theorem Memory.ofBytes_eq (bytes : List Byte) :
    Memory.ofBytes bytes = (bytes.zipIdx 0).map (fun p => (p.2, p.1)) := by
  simpa [Memory.ofBytes] using Memory.storeBytes_append [] 0 bytes (by simp)

/-- The program input is dense. -/
theorem Memory.dense_ofBytes (bytes : List Byte) : (Memory.ofBytes bytes).dense = true := by
  rw [Memory.ofBytes_eq, Memory.dense]
  generalize 0 = n
  induction bytes generalizing n with
  | nil => rfl
  | cons b rest ih => simp [Memory.denseFrom, ih]

theorem Memory.read_ofBytes (bytes : List Byte) (i : Nat) : (Memory.ofBytes bytes).read i = bytes[i]? := by
  rw [Memory.ofBytes, Memory.read_storeBytes]
  split
  · simp
  · rename_i h
    rw [List.getElem?_eq_none (by omega)]
    rfl

theorem Memory.extent_ofBytes (bytes : List Byte) : (Memory.ofBytes bytes).extent = bytes.length := by
  rw [Memory.extent_dense (Memory.dense_ofBytes bytes), Memory.ofBytes_eq]
  simp

/-! ### Bounds -/

/-- No byte stands at or past `L`. -/
theorem Memory.read_past_extent {m : Memory} {i : Nat} (h : m.extent ≤ i) : m.read i = none := by
  induction m with
  | nil => rfl
  | cons c rest ih =>
    obtain ⟨k, c⟩ := c
    simp only [Memory.extent] at h
    simp only [Memory.read]
    rw [if_neg (by omega)]
    exact ih (by omega)

/-- A dense store has a byte at every index below `L`. -/
theorem Memory.read_dense {m : Memory} (h : m.dense = true) {i : Nat} (hi : i < m.extent) : ∃ b, m.read i = some b := by
  rw [Memory.extent_dense h] at hi
  have := Memory.read_denseFrom h i
  rw [Nat.zero_add, List.getElem?_eq_getElem hi] at this
  exact ⟨_, this⟩

/-! ### The window -/

theorem Memory.window_length_le (m : Memory) (addr n : Nat) : (m.window addr n).length ≤ n := by
  induction n generalizing addr with
  | zero => simp [Memory.window]
  | succ n ih =>
    simp only [Memory.window]
    split
    · simp
    · simpa using ih (addr + 1)

/-- A byte of the window is the byte of the store. -/
theorem Memory.window_getElem? (m : Memory) (addr n k : Nat) (h : k < (m.window addr n).length) :
    (m.window addr n)[k]? = m.read (addr + k) := by
  induction n generalizing addr k with
  | zero => simp [Memory.window] at h
  | succ n ih =>
    simp only [Memory.window] at h ⊢
    cases hr : m.read addr with
    | none => simp [hr] at h
    | some b =>
      simp only [hr, List.length_cons] at h ⊢
      cases k with
      | zero => simp [hr]
      | succ k =>
        rw [List.getElem?_cons_succ, ih (addr + 1) k (by omega)]
        congr 1
        omega

/-- The window stops at the first index that holds no byte. -/
theorem Memory.window_stops (m : Memory) (addr n : Nat) (h : (m.window addr n).length < n) :
    m.read (addr + (m.window addr n).length) = none := by
  induction n generalizing addr with
  | zero => simp at h
  | succ n ih =>
    simp only [Memory.window] at h ⊢
    cases hr : m.read addr with
    | none => simp [hr]
    | some b =>
      simp only [hr, List.length_cons] at h ⊢
      have := ih (addr + 1) (by omega)
      rw [← this]
      congr 1
      omega

/-- The window begins with bytes that stand in the store one after the other. -/
theorem Memory.window_of_bytes (m : Memory) (addr n : Nat) (bytes : List Byte) (hn : bytes.length ≤ n)
    (h : ∀ k, k < bytes.length → m.read (addr + k) = bytes[k]?) :
    ∃ rest, m.window addr n = bytes ++ rest := by
  induction bytes generalizing addr n with
  | nil => exact ⟨_, rfl⟩
  | cons b rest ih =>
    cases n with
    | zero => simp at hn
    | succ n =>
      have h0 : m.read addr = some b := by simpa using h 0 (by simp)
      obtain ⟨r, hr⟩ := ih (addr + 1) n (by simpa using hn) (fun k hk => by
        have := h (k + 1) (by simpa using hk)
        rw [List.getElem?_cons_succ] at this
        rw [← this]
        congr 1
        omega)
      exact ⟨r, by simp [Memory.window, h0, hr]⟩

end Sys2Proof.Machine
end

