-- ==== Sys2Proof/Laws/PerInstr.lean ====
section
/-! SUPPORT. The per-instruction family `EncodedLength`: every instruction's encoding has the length its format gives it, and that is 1, 2 or
9 bytes (30_encoding.md R70, R71). One lemma per constructor. -/

namespace Sys2Proof.Laws.EncodedLength

/-- The encoding of `i` is as long as the format says, one of the three lengths there are. -/
def Statement (i : Instr) : Prop :=
  (encode i).length = i.length ∧ (i.length = 1 ∨ i.length = 2 ∨ i.length = 9)

theorem halt : Statement .halt := ⟨rfl, .inl rfl⟩
theorem nop : Statement .nop := ⟨rfl, .inl rfl⟩
theorem dconstM1 : Statement .dconstM1 := ⟨rfl, .inl rfl⟩
theorem dconst0 : Statement .dconst0 := ⟨rfl, .inl rfl⟩
theorem dconst1 : Statement .dconst1 := ⟨rfl, .inl rfl⟩
theorem dconst2 : Statement .dconst2 := ⟨rfl, .inl rfl⟩
theorem dconst (lit : Word) : Statement (.dconst lit) := ⟨rfl, .inr (.inr rfl)⟩
theorem add : Statement .add := ⟨rfl, .inl rfl⟩
theorem sub : Statement .sub := ⟨rfl, .inl rfl⟩
theorem mul : Statement .mul := ⟨rfl, .inl rfl⟩
theorem div : Statement .div := ⟨rfl, .inl rfl⟩
theorem neg : Statement .neg := ⟨rfl, .inl rfl⟩
theorem st1 : Statement .st1 := ⟨rfl, .inl rfl⟩
theorem st2 : Statement .st2 := ⟨rfl, .inl rfl⟩
theorem ld1 : Statement .ld1 := ⟨rfl, .inl rfl⟩
theorem ld2 : Statement .ld2 := ⟨rfl, .inl rfl⟩
theorem print : Statement .print := ⟨rfl, .inl rfl⟩
theorem mov (src dst : BitVec 4) : Statement (.mov src dst) := ⟨rfl, .inr (.inl rfl)⟩

end Sys2Proof.Laws.EncodedLength
end

