-- ==== Sys2Proof/Laws/Rounding.lean ====
section
/-! SUPPORT. The rounded magnitude is the nearest binary64 magnitude, ties to even, and the overflow bound is where it becomes an infinity
(40_numeric_decoder.md R104 to R106, R110). -/

namespace Sys2Proof

open Sys2Proof.Machine

/-- The significand that `n / d` units round to. -/
def significand (n d : Nat) : Nat := roundQuot .halfEven n (d <<< droppedBits (n / d))

/-- The magnitude bits before the overflow to infinity. -/
def unboundedMagnitude (n d : Nat) : Nat := droppedBits (n / d) * 2 ^ 52 + significand n d

theorem roundMagnitude_eq (n d : Nat) : roundMagnitude n d = min (unboundedMagnitude n d) infMagnitude := rfl

/-- What is left after the dropped bits is below 2^53. -/
theorem lt_of_droppedBits (n d : Nat) (hd : 0 < d) : n < d * 2 ^ (53 + droppedBits (n / d)) := by
  have h1 : n / d < 2 ^ (53 + droppedBits (n / d)) := by
    unfold droppedBits
    calc n / d < 2 ^ (Nat.log2 (n / d) + 1) := Nat.lt_log2_self
      _ ≤ 2 ^ (53 + (Nat.log2 (n / d) - 52)) := Nat.pow_le_pow_right (by norm_num) (by omega)
  have h2 := Nat.lt_mul_div_succ n hd
  calc n < d * (n / d + 1) := h2
    _ ≤ d * 2 ^ (53 + droppedBits (n / d)) := Nat.mul_le_mul_left d h1

/-- Bits are dropped only from a significand of 53 bits or more. -/
theorem le_of_droppedBits (n d : Nat) (h : 0 < droppedBits (n / d)) : d * 2 ^ (52 + droppedBits (n / d)) ≤ n := by
  have hk : 52 + droppedBits (n / d) = Nat.log2 (n / d) := by unfold droppedBits at h ⊢; omega
  have hne : n / d ≠ 0 := by
    intro h0
    simp [droppedBits, h0] at h
  calc d * 2 ^ (52 + droppedBits (n / d)) ≤ d * (n / d) := by
        rw [hk]
        exact Nat.mul_le_mul_left d (Nat.log2_self_le hne)
    _ ≤ n := Nat.mul_div_le n d

theorem significand_le (n d : Nat) (hd : 0 < d) : significand n d ≤ 2 ^ 53 := by
  have h := lt_of_droppedBits n d hd
  rw [significand, Nat.shiftLeft_eq]
  refine roundQuot_le (by positivity) ?_
  rw [pow_add, mul_comm (2 ^ 53), ← mul_assoc] at h
  exact le_of_lt h

theorem le_significand (n d : Nat) (hd : 0 < d) (h : 0 < droppedBits (n / d)) : 2 ^ 52 ≤ significand n d := by
  have h := le_of_droppedBits n d h
  rw [significand, Nat.shiftLeft_eq]
  refine le_roundQuot (by positivity) ?_
  rw [pow_add, mul_comm (2 ^ 52), ← mul_assoc] at h
  exact h

/-- The magnitude a pattern of these bits has: the significand scaled back, whether it is subnormal, normal or has just carried. -/
theorem magnitude_pack_unbounded (s : Bool) (n d : Nat) (hd : 0 < d) (h : unboundedMagnitude n d < 2 ^ 63) :
    magnitude (pack s (unboundedMagnitude n d)) = significand n d * 2 ^ droppedBits (n / d) := by
  have h1 := significand_le n d hd
  rw [magnitude, expField_pack h, fracField_pack h, Nat.shiftLeft_eq]
  unfold unboundedMagnitude
  by_cases hlt : significand n d < 2 ^ 52
  · have hk : droppedBits (n / d) = 0 := by
      by_contra hk
      have := le_significand n d hd (by omega)
      omega
    rw [hk, if_pos (by omega)]
    simp only [zero_mul, zero_add, pow_zero, mul_one]
    omega
  · rw [if_neg (by omega)]
    by_cases heq : significand n d = 2 ^ 53
    · rw [show (droppedBits (n / d) * 2 ^ 52 + significand n d) / 2 ^ 52 - 1 = droppedBits (n / d) + 1 by omega,
        show (droppedBits (n / d) * 2 ^ 52 + significand n d) % 2 ^ 52 = 0 by omega, heq, pow_succ]
      ring
    · rw [show (droppedBits (n / d) * 2 ^ 52 + significand n d) / 2 ^ 52 - 1 = droppedBits (n / d) by omega,
        show 2 ^ 52 + (droppedBits (n / d) * 2 ^ 52 + significand n d) % 2 ^ 52 = significand n d by omega]

/-- No finite magnitude is nearer to `n / d` than the scaled significand, and a tie falls on an even significand. -/
theorem significand_nearest (n d : Nat) (hd : 0 < d) (w : Word) :
    |((significand n d * 2 ^ droppedBits (n / d) : ℕ) : ℚ) - (n : ℚ) / d| ≤ |(magnitude w : ℚ) - (n : ℚ) / d| ∧
      (magnitude w ≠ significand n d * 2 ^ droppedBits (n / d) →
        |(magnitude w : ℚ) - (n : ℚ) / d| = |((significand n d * 2 ^ droppedBits (n / d) : ℕ) : ℚ) - (n : ℚ) / d| →
        significand n d % 2 = 0) := by
  set k := droppedBits (n / d) with hk
  have hdq : (0 : ℚ) < d := by exact_mod_cast hd
  have h2k : (0 : ℚ) < 2 ^ k := by positivity
  have hdk : 0 < d <<< k := by rw [Nat.shiftLeft_eq]; positivity
  -- the distance of a multiple of 2^k is 2^k times the distance of the multiplier
  have scale : ∀ j : ℕ, |((j * 2 ^ k : ℕ) : ℚ) - (n : ℚ) / d| = 2 ^ k * |(j : ℚ) - (n : ℚ) / (d <<< k : ℕ)| := by
    intro j
    have : ((j * 2 ^ k : ℕ) : ℚ) - (n : ℚ) / d = 2 ^ k * ((j : ℚ) - (n : ℚ) / (d <<< k : ℕ)) := by
      rw [Nat.shiftLeft_eq]
      push_cast
      field_simp
    rw [this, abs_mul, abs_of_pos h2k]
  have multiple : ∀ j : ℕ,
      |((significand n d * 2 ^ k : ℕ) : ℚ) - (n : ℚ) / d| ≤ |((j * 2 ^ k : ℕ) : ℚ) - (n : ℚ) / d| ∧
      (j ≠ significand n d →
        |((j * 2 ^ k : ℕ) : ℚ) - (n : ℚ) / d| = |((significand n d * 2 ^ k : ℕ) : ℚ) - (n : ℚ) / d| →
        significand n d % 2 = 0) := by
    intro j
    obtain ⟨h1, h2⟩ := roundQuot_nearest n (d <<< k) hdk j
    refine ⟨?_, fun hne he => h2 hne ?_⟩
    · rw [scale, scale]
      exact mul_le_mul_of_nonneg_left h1 h2k.le
    · rw [scale, scale] at he
      exact mul_left_cancel₀ h2k.ne' he
  rcases magnitude_grid w k with ⟨j, hj⟩ | hlt
  · rw [hj, mul_comm (2 ^ k) j]
    obtain ⟨h1, h2⟩ := multiple j
    exact ⟨h1, fun hne he => h2 (fun hc => hne (by rw [hc])) he⟩
  · by_cases hk0 : k = 0
    · have h := multiple (magnitude w)
      rw [hk0] at h ⊢
      simp only [pow_zero, mul_one] at h ⊢
      exact h
    · -- a magnitude below 2^(52+k) is farther than 2^(52+k), which is a multiple
      have hge := le_of_droppedBits n d (by omega)
      have hy : ((2 ^ (52 + k) : ℕ) : ℚ) ≤ (n : ℚ) / d := by
        rw [le_div_iff₀ hdq]
        have : ((d * 2 ^ (52 + k) : ℕ) : ℚ) ≤ n := by exact_mod_cast hge
        push_cast at this ⊢
        linarith
      have hm : (magnitude w : ℚ) < ((2 ^ (52 + k) : ℕ) : ℚ) := by exact_mod_cast hlt
      have hfar : |((2 ^ (52 + k) : ℕ) : ℚ) - (n : ℚ) / d| < |(magnitude w : ℚ) - (n : ℚ) / d| := by
        rw [abs_of_nonpos (by linarith), abs_of_nonpos (by linarith)]
        linarith
      have h1 := (multiple (2 ^ 52)).1
      rw [← pow_add] at h1
      exact ⟨by linarith, fun _ he => by linarith⟩

/-- The bound in units from which the rounded magnitude is an infinity: halfway past the largest finite magnitude. -/
def overflowUnits : Nat := 2 ^ 2098 - 2 ^ 2044

theorem infMagnitude_le_iff (n d : Nat) (hd : 0 < d) :
    infMagnitude ≤ unboundedMagnitude n d ↔ d * overflowUnits ≤ n := by
  set k := droppedBits (n / d) with hk
  have hle := significand_le n d hd
  have hlt := lt_of_droppedBits n d hd
  have hsig : significand n d = roundQuot .halfEven n (d * 2 ^ k) := by rw [significand, Nat.shiftLeft_eq]
  have e98 : (2 : ℕ) ^ 2098 = 2 ^ 54 * 2 ^ 2044 := by rw [show 2098 = 54 + 2044 from rfl, pow_add]
  have eU : overflowUnits = (2 ^ 54 - 1) * 2 ^ 2044 := by rw [overflowUnits, e98, Nat.sub_mul, one_mul]
  unfold unboundedMagnitude infMagnitude
  rw [← hk] at hlt ⊢
  constructor
  · intro h
    by_cases hk1 : 2046 ≤ k
    · have hge := le_of_droppedBits n d (by omega)
      rw [← hk] at hge
      calc d * overflowUnits ≤ d * 2 ^ (52 + k) := by
            refine Nat.mul_le_mul_left d ?_
            rw [eU]
            calc (2 ^ 54 - 1) * 2 ^ 2044 ≤ 2 ^ 54 * 2 ^ 2044 := Nat.mul_le_mul_right _ (by norm_num)
              _ = 2 ^ 2098 := e98.symm
              _ ≤ 2 ^ (52 + k) := Nat.pow_le_pow_right (by norm_num) (by omega)
        _ ≤ n := hge
    · have hk2 : k = 2045 := by omega
      have hs : significand n d = 2 ^ 53 := by omega
      by_contra hc
      -- then n / (d 2^k) < 2^53 - 1/2, whose nearest number is below 2^53
      have hn : n < d * ((2 ^ 54 - 1) * 2 ^ 2044) := by rw [← eU]; omega
      have hD : (0 : ℚ) < ((d * 2 ^ k : ℕ) : ℚ) := by
        have : 0 < d * 2 ^ k := by positivity
        exact_mod_cast this
      obtain ⟨h1, -⟩ := roundQuot_spec n (d * 2 ^ k) (by positivity)
      rw [← hsig, hs] at h1
      have hy : (n : ℚ) / (d * 2 ^ k : ℕ) < 2 ^ 53 - 1 / 2 := by
        rw [div_lt_iff₀ hD]
        have e : d * ((2 ^ 54 - 1) * 2 ^ 2044) * 2 = (2 ^ 54 - 1) * (d * 2 ^ k) := by
          rw [hk2, show (2 : ℕ) ^ 2045 = 2 ^ 2044 * 2 from pow_succ 2 2044]
          ring
        have : 2 * n < (2 ^ 54 - 1) * (d * 2 ^ k) := by omega
        have hq : (2 * (n : ℚ)) < (2 ^ 54 - 1) * ((d * 2 ^ k : ℕ) : ℚ) := by
          have h3 : ((2 * n : ℕ) : ℚ) < (((2 ^ 54 - 1) * (d * 2 ^ k) : ℕ) : ℚ) := by exact_mod_cast this
          rw [Nat.cast_mul (2 ^ 54 - 1)] at h3
          norm_num at h3 ⊢
          exact h3
        linarith
      rw [abs_of_pos (by push_cast; push_cast at hy; linarith)] at h1
      push_cast at h1 hy
      linarith
  · intro h
    have hkge : 2045 ≤ k := by
      by_contra hc
      have : 2 ^ (53 + k) ≤ 2 ^ 2097 := Nat.pow_le_pow_right (by norm_num) (by omega)
      have e97 : (2 : ℕ) ^ 2097 = 2 ^ 53 * 2 ^ 2044 := by rw [← pow_add]
      have : overflowUnits < 2 ^ (53 + k) := Nat.lt_of_mul_lt_mul_left (lt_of_le_of_lt h hlt)
      have : 2 ^ 53 * 2 ^ 2044 ≤ (2 ^ 54 - 1) * 2 ^ 2044 := Nat.mul_le_mul_right _ (by norm_num)
      omega
    by_cases hk2 : k = 2045
    · -- n / (d 2^k) ≥ 2^53 - 1/2, which rounds to 2^53: the tie goes to the even number
      have hs : significand n d = 2 ^ 53 := by
        by_contra hne
        have hD : (0 : ℚ) < ((d * 2 ^ k : ℕ) : ℚ) := by
          have : 0 < d * 2 ^ k := by positivity
          exact_mod_cast this
        have hy : (2 : ℚ) ^ 53 - 1 / 2 ≤ (n : ℚ) / (d * 2 ^ k : ℕ) := by
          rw [le_div_iff₀ hD]
          rw [eU] at h
          have e : d * ((2 ^ 54 - 1) * 2 ^ 2044) * 2 = (2 ^ 54 - 1) * (d * 2 ^ k) := by
            rw [hk2, show (2 : ℕ) ^ 2045 = 2 ^ 2044 * 2 from pow_succ 2 2044]
            ring
          have : (2 ^ 54 - 1) * (d * 2 ^ k) ≤ 2 * n := by omega
          have hq : (2 ^ 54 - 1) * ((d * 2 ^ k : ℕ) : ℚ) ≤ 2 * (n : ℚ) := by
            have h3 : (((2 ^ 54 - 1) * (d * 2 ^ k) : ℕ) : ℚ) ≤ ((2 * n : ℕ) : ℚ) := by exact_mod_cast this
            rw [Nat.cast_mul (2 ^ 54 - 1)] at h3
            norm_num at h3 ⊢
            exact h3
          linarith
        obtain ⟨h1, h2⟩ := roundQuot_spec n (d * 2 ^ k) (by positivity)
        rw [← hsig] at h1 h2
        have hlt' : significand n d + 1 ≤ 2 ^ 53 := by omega
        have hltq : (significand n d : ℚ) + 1 ≤ 2 ^ 53 := by exact_mod_cast hlt'
        have hneg : (significand n d : ℚ) - (n : ℚ) / (d * 2 ^ k : ℕ) ≤ -(1 / 2) := by linarith
        rw [abs_of_nonpos (by linarith)] at h1 h2
        have heven := h2 (by linarith)
        have heq : (significand n d : ℚ) = 2 ^ 53 - 1 := by linarith
        have : significand n d = 2 ^ 53 - 1 := by
          have h3 : ((significand n d : ℕ) : ℚ) = ((2 ^ 53 - 1 : ℕ) : ℚ) := by rw [heq]; norm_num
          exact_mod_cast h3
        omega
      omega
    · have := le_significand n d hd (by omega)
      omega

/-- The overflow bound in units is the overflow bound. -/
theorem overflowBound_eq : overflowBound = (overflowUnits : ℚ) / 2 ^ 1074 := by
  have e1 : (2 : ℚ) ^ 2098 = 2 ^ 1024 * 2 ^ 1074 := by rw [← pow_add]
  have e2 : (2 : ℚ) ^ 2044 = 2 ^ 970 * 2 ^ 1074 := by rw [← pow_add]
  have h : (2 : ℕ) ^ 2044 ≤ 2 ^ 2098 := Nat.pow_le_pow_right (by norm_num) (by norm_num)
  rw [overflowUnits, Nat.cast_sub h, Nat.cast_pow, Nat.cast_pow, Nat.cast_ofNat, e1, e2, overflowBound, ← sub_mul,
    mul_div_assoc, div_self (by positivity), mul_one]

/-! ### The rounded pattern -/

/-- The rounded magnitude never reaches past the infinity's. -/
theorem roundMagnitude_lt (n d : Nat) : roundMagnitude n d < 2 ^ 63 := by
  rw [roundMagnitude_eq]
  exact lt_of_le_of_lt (Nat.min_le_right _ _) (by decide)

/-- A packed rounded magnitude is finite or an infinity, never a NaN. -/
theorem isNaN_pack_roundMagnitude (s : Bool) (n d : Nat) : isNaN (pack s (roundMagnitude n d)) = false := by
  have h : roundMagnitude n d ≤ 2047 * 2 ^ 52 := Nat.min_le_right _ _
  rw [Bool.eq_false_iff, ne_eq, isNaN_iff, expField_pack (roundMagnitude_lt n d), fracField_pack (roundMagnitude_lt n d)]
  omega

theorem overflowBound_pos : 0 < overflowBound := by
  rw [overflowBound, sub_pos]
  exact pow_lt_pow_right₀ (by norm_num) (by norm_num)

/-- The overflow test on the exact number is the one on units. -/
theorem overflowBound_le_iff (n d : Nat) (hd : 0 < d) :
    overflowBound ≤ ((n : ℚ) / d) / 2 ^ 1074 ↔ d * overflowUnits ≤ n := by
  have hdq : (0 : ℚ) < d := by exact_mod_cast hd
  have hU : (0 : ℚ) < 2 ^ 1074 := by positivity
  rw [overflowBound_eq, div_le_div_iff_of_pos_right hU, le_div_iff₀ hdq, mul_comm]
  exact_mod_cast Iff.rfl

/-- From the bound on, the rounded pattern is the infinity. -/
theorem pack_roundMagnitude_overflow (s : Bool) {n d : Nat} (hd : 0 < d) (h : d * overflowUnits ≤ n) :
    pack s (roundMagnitude n d) = infOf s := by
  rw [roundMagnitude_eq, Nat.min_eq_right ((infMagnitude_le_iff n d hd).mpr h), infOf]

/-- The pattern of the rounded magnitude is the exact number `x`, of sign `s` and magnitude `n / d` units, correctly rounded. -/
theorem correctlyRounded_pack (s : Bool) (n d : Nat) (hd : 0 < d) (x : ℚ)
    (hx : x = (if s then -1 else 1) * (((n : ℚ) / d) / 2 ^ 1074)) : CorrectlyRounded x (pack s (roundMagnitude n d)) := by
  have hy0 : (0 : ℚ) ≤ (n : ℚ) / d := by positivity
  have hU : (0 : ℚ) < 2 ^ 1074 := by positivity
  have hax : |x| = ((n : ℚ) / d) / 2 ^ 1074 := by
    have h : (0 : ℚ) ≤ ((n : ℚ) / d) / 2 ^ 1074 := div_nonneg hy0 hU.le
    rw [hx]
    generalize ((n : ℚ) / d) / 2 ^ 1074 = y at h
    split <;> simp [abs_of_nonneg h]
  have hsign : x ≠ 0 → s = decide (x < 0) := by
    intro hne
    have h : (0 : ℚ) < ((n : ℚ) / d) / 2 ^ 1074 := by rw [← hax]; exact abs_pos.mpr hne
    generalize ((n : ℚ) / d) / 2 ^ 1074 = y at h hx
    cases s
    · simp only [Bool.false_eq_true, if_false, one_mul] at hx
      simp [hx, h.le]
    · simp only [if_true, neg_one_mul] at hx
      simp [hx, h]
  unfold CorrectlyRounded
  rw [hax]
  by_cases ho : d * overflowUnits ≤ n
  · have hb := (overflowBound_le_iff n d hd).mpr ho
    rw [if_pos hb, pack_roundMagnitude_overflow s hd ho, signBit_infOf]
    refine ⟨isInf_infOf s, hsign fun h0 => ?_⟩
    rw [h0, abs_zero] at hax
    rw [← hax] at hb
    exact absurd hb (not_le.mpr overflowBound_pos)
  · rw [if_neg (fun h => ho ((overflowBound_le_iff n d hd).mp h))]
    have hlt : unboundedMagnitude n d < infMagnitude := by
      rw [← not_le, infMagnitude_le_iff n d hd]
      exact ho
    have h63 : unboundedMagnitude n d < 2 ^ 63 := lt_trans hlt (by decide)
    rw [roundMagnitude_eq, Nat.min_eq_left hlt.le]
    set r := pack s (unboundedMagnitude n d) with hr
    have hmag : magnitude r = significand n d * 2 ^ droppedBits (n / d) := magnitude_pack_unbounded s n d hd h63
    have hsr : signBit r = s := signBit_pack h63
    have hdist : |value r - x| = |(magnitude r : ℚ) - (n : ℚ) / d| / 2 ^ 1074 := by
      have : value r - x = (if s then -1 else 1) * (((magnitude r : ℚ) - (n : ℚ) / d) / 2 ^ 1074) := by
        rw [value_eq, hsr, hx, sub_div, mul_sub]
      rw [this, abs_mul, abs_div, abs_of_pos hU]
      cases s <;> simp
    have hfar : ∀ w : Word, |(magnitude w : ℚ) - (n : ℚ) / d| / 2 ^ 1074 ≤ |value w - x| := by
      intro w
      have h := abs_abs_sub_abs_le_abs_sub (value w) x
      rwa [abs_value, hax, ← sub_div, abs_div, abs_of_pos hU] at h
    have hnear : ∀ w : Word, |value r - x| ≤ |(magnitude w : ℚ) - (n : ℚ) / d| / 2 ^ 1074 := by
      intro w
      rw [hdist, hmag]
      exact div_le_div_of_nonneg_right (significand_nearest n d hd w).1 hU.le
    refine ⟨?_, fun w _ => le_trans (hnear w) (hfar w), fun w _ hne he => ?_, ?_⟩
    · rw [isFinite_iff, hr, expField_pack h63]
      unfold infMagnitude at hlt
      omega
    · have hm : magnitude w ≠ magnitude r := by
        intro hm
        have habs : |value w| = |value r| := by rw [abs_value, abs_value, hm]
        rcases abs_eq_abs.mp habs with h | h
        · exact hne h
        · -- the opposite of a non-zero result is as near only to zero, and there zero is nearer
          rw [h] at he hne
          have hv : value r ≠ 0 := fun h0 => hne (by rw [h0, neg_zero])
          have hx0 : x = 0 := by
            have h2 : (-value r - x) ^ 2 = (value r - x) ^ 2 := by rw [← sq_abs, he, sq_abs]
            have h4 : value r * x = 0 := by linarith [h2]
            exact (mul_eq_zero.mp h4).resolve_left hv
          have hz := hnear 0#64
          rw [hx0, abs_zero] at hax
          have hy : (n : ℚ) / d = 0 := by
            have := hax.symm
            rwa [div_eq_zero_iff, or_iff_left hU.ne'] at this
          have hm0 : magnitude 0#64 = 0 := by decide
          rw [hx0, hy, hm0, sub_zero] at hz
          simp at hz
          exact hv hz
      have heven : significand n d % 2 = 0 := by
        refine (significand_nearest n d hd w).2 (fun h => hm (by rw [hmag, h])) (le_antisymm ?_ ?_)
        · have h := hfar w
          rw [he, hdist, hmag, div_le_div_iff_of_pos_right hU] at h
          exact h
        · exact (significand_nearest n d hd w).1
      rw [hr, getLsbD_zero_pack h63, decide_eq_false_iff_not]
      unfold unboundedMagnitude
      omega
    · rw [hsr]
      exact hsign

end Sys2Proof
end

