-- ==== Sys2Proof/Laws/Run.lean ====
section
/-! SUPPORT. Running several steps, one at a time. -/

namespace Sys2Proof

open Sys2Proof.Machine

@[simp] theorem run_zero (s : State) : Host.Core.run core 0 s = .next s := rfl

/-- A run of one step more begins with the step. -/
theorem run_next {s t : State} (k : Nat) (h : step s = .next t) : Host.Core.run core (k + 1) s = Host.Core.run core k t := by
  have h' : core.step s = .next t := h
  simp only [Host.Core.run, h']

/-- A run stops where a step faults. -/
theorem run_fault {s : State} {f : Fault} (k : Nat) (h : step s = .fault f) : Host.Core.run core (k + 1) s = .fault f := by
  have h' : core.step s = .fault f := h
  simp only [Host.Core.run, h']

/-- A step starts in a running state. -/
theorem running_of_step {s t : State} (h : step s = .next t) : s.mode = .running := by
  unfold step at h
  split at h
  · cases h
  · assumption

/-- No step leaves a halted state. -/
theorem step_halted {s : State} (h : s.halted = true) : step s = .fault .halted := by
  cases hm : s.mode with
  | running => simp [State.halted, hm] at h
  | halted c => simp only [step, hm]

end Sys2Proof
end

