-- ==== Sys2Proof/Laws/Unit.lean ====
section
/-! SUPPORT. What the operations of the arithmetic unit give: negation field by field, the quiet NaN, the rounded sum, and the class of
every result (40_numeric_decoder.md R104 to R112). -/

namespace Sys2Proof

open Sys2Proof.Machine

/-! ### Negation (R108) -/

theorem signBit_fneg (a : Word) : signBit (fneg a) = !signBit a := by simp [fneg, signBit]

theorem expField_fneg (a : Word) : expField (fneg a) = expField a := by
  have h : BitVec.extractLsb' 52 11 (0x8000000000000000#64) = 0#11 := by decide
  rw [expField, fneg, BitVec.extractLsb'_xor, h, BitVec.xor_zero, expField]

theorem fracField_fneg (a : Word) : fracField (fneg a) = fracField a := by
  have h : BitVec.extractLsb' 0 52 (0x8000000000000000#64) = 0#52 := by decide
  rw [fracField, fneg, BitVec.extractLsb'_xor, h, BitVec.xor_zero, fracField]

@[simp] theorem isNaN_fneg (a : Word) : isNaN (fneg a) = isNaN a := by simp [isNaN, expField_fneg, fracField_fneg]
@[simp] theorem isInf_fneg (a : Word) : isInf (fneg a) = isInf a := by simp [isInf, expField_fneg, fracField_fneg]
@[simp] theorem isZero_fneg (a : Word) : isZero (fneg a) = isZero a := by simp [isZero, expField_fneg, fracField_fneg]
@[simp] theorem isFinite_fneg (a : Word) : isFinite (fneg a) = isFinite a := by simp [isFinite, expField_fneg]

theorem value_fneg (a : Word) : value (fneg a) = -value a := by
  have h : magnitude (fneg a) = magnitude a := by rw [magnitude, magnitude, expField_fneg, fracField_fneg]
  rw [value_eq, value_eq, signBit_fneg, h]
  generalize (magnitude a : ℚ) / 2 ^ 1074 = y
  cases signBit a <;> simp

/-! ### The zero test (R112) -/

theorem isZeroDivisor_eq_isZero (b : Word) : isZeroDivisor b = isZero b := by
  have h0 : isNaN 0#64 = false := by decide
  have hz : isZero 0#64 = true := by decide
  rw [Bool.eq_iff_iff]
  constructor
  · intro h
    simp only [isZeroDivisor, feq, h0, hz, Bool.and_true, Bool.and_eq_true, Bool.or_eq_true, beq_iff_eq] at h
    rcases h.2 with h | h
    · rw [h]
      exact hz
    · exact h
  · intro h
    have hn : isNaN b = false := by
      rw [isZero_iff] at h
      simp [isNaN, h.1]
    simp [isZeroDivisor, feq, h0, hz, h, hn]

/-! ### The quiet NaN (R107) -/

theorem nanResult_quiet (op : ArithOp) (a b : Word) :
    expField (nanResult op a b) = 2047 ∧ (nanResult op a b).getLsbD 51 = true := by
  have h : BitVec.extractLsb' 52 11 (0x7FF8000000000000#64) = BitVec.allOnes 11 := by decide
  constructor
  · rw [nanResult, expField, BitVec.extractLsb'_or, h, BitVec.or_allOnes]
    decide
  · simp [nanResult]

/-- A pattern with a full exponent and bit 51 set is a NaN. -/
theorem isNaN_of_quiet {r : Word} (he : expField r = 2047) (hq : r.getLsbD 51 = true) : isNaN r = true := by
  rw [isNaN_iff]
  refine ⟨he, fun hf => ?_⟩
  have h0 : r.extractLsb' 0 52 = 0#52 := BitVec.eq_of_toNat_eq hf
  have h1 : (r.extractLsb' 0 52).getLsbD 51 = r.getLsbD 51 := by
    rw [BitVec.getLsbD_extractLsb']
    rfl
  rw [h0, hq] at h1
  cases h1

theorem isNaN_nanResult (op : ArithOp) (a b : Word) : isNaN (nanResult op a b) = true :=
  isNaN_of_quiet (nanResult_quiet op a b).1 (nanResult_quiet op a b).2

/-! ### Sums -/

/-- The finite sum is the exact sum, correctly rounded. -/
theorem addFinite_rounded (a b : Word) : CorrectlyRounded (value a + value b) (addFinite a b) := by
  have hv : value a + value b = ((signedUnits a + signedUnits b : ℤ) : ℚ) / 2 ^ 1074 := by
    rw [value_eq_signedUnits, value_eq_signedUnits, ← add_div]
    push_cast
    rfl
  unfold addFinite
  generalize hx : signedUnits a + signedUnits b = x at hv
  simp only
  split
  · rename_i h0
    have e : zeroOf (signBit a && signBit b) = pack (signBit a && signBit b) (roundMagnitude 0 1) := by
      rw [show roundMagnitude 0 1 = 0 by decide, zeroOf]
    rw [hv, h0, e]
    exact correctlyRounded_pack _ 0 1 (by norm_num) _ (by simp)
  · rw [hv]
    apply correctlyRounded_pack _ x.natAbs 1 (by norm_num)
    have hc : ((x.natAbs : ℕ) : ℚ) = |(x : ℚ)| := by rw [← Int.cast_natCast (R := ℚ) x.natAbs, Int.natCast_natAbs, Int.cast_abs]
    rw [hc]
    generalize (2 : ℚ) ^ 1074 = u
    by_cases h : x < 0
    · have hq : (x : ℚ) < 0 := by exact_mod_cast h
      simp only [h, decide_true, if_true, abs_of_neg hq, Nat.cast_one, div_one]
      ring
    · have hq : (0 : ℚ) ≤ x := by exact_mod_cast not_lt.mp h
      simp only [h, decide_false, Bool.false_eq_true, if_false, abs_of_nonneg hq, Nat.cast_one, div_one]
      ring

/-- A sum of numbers is no NaN. -/
theorem isNaN_addNumbers {a b : Word} (ha : isNaN a = false) (hb : isNaN b = false) : isNaN (addNumbers a b) = false := by
  unfold addNumbers
  split
  · exact ha
  · split
    · exact hb
    · simp only [addFinite]
      split
      · cases signBit a && signBit b <;> decide
      · exact isNaN_pack_roundMagnitude _ _ _

end Sys2Proof
end

