-- ==== Sys2Proof/Tests/Slice0.lean ====
section
/-! SUPPORT. The model's own tests: ill-formed terms are refused; words written out from 30_encoding.md R71 to R75 decode to their
instructions; one step of each instruction against 95_test_vectors.md; and, for every statement with hypotheses, a concrete state that
meets them all. -/

namespace Sys2Proof.Tests

open Sys2Proof.Machine

/-! ### Helpers -/

/-- The values on the stack of the state, bottom first. -/
def withStack (values : List Word) (s : State) : State := values.foldl State.pushed s

/-- The start of a run of `program` with `values` already on the stack, bottom first. -/
def loaded (program : List Byte) (values : List Word) : State := withStack values (State.start program)

/-- The start of a run of `program` with every slot holding +0. -/
def full (program : List Byte) : State :=
  { State.start program with sp := 255, stack := Vector.replicate stackCap (some 0x0000000000000000#64) }

/-- The state after a step, if there is one. -/
def after (s : State) : Option State :=
  match step s with
  | .next t => some t
  | .fault _ => none
  | .refused _ => none

/-- What a test looks at after one step of `program` with `values` on the stack: `pc`, `sp`, and the top of the stack. -/
def look (program : List Byte) (values : List Word) : Option (Nat × Int × Option Word) :=
  (after (loaded program values)).map fun t => (t.pc, t.sp, t.slot t.sp)

/-- What a test looks at when a step fails: `pc`, `sp` and the record. -/
def failure (s : State) : Option (Nat × Int × Option Diag) :=
  (after s).map fun t => (t.pc, t.sp, t.diag)

/-- A record without operands. -/
def record (kind : FatalKind) (index : Nat) (byte : Option Byte) : Option Diag :=
  some { kind := kind, index := index, byte := byte, operand := none, a := none, b := none }

/-- The invariant of a state with `n` values on the stack, from checks that compute. -/
theorem inv_of {s : State} (n : Nat) (hn : s.sp = (n : Int) - 1) (hc : n ≤ stackCap)
    (hs : ∀ k : Nat, k < n → (s.slot k).isSome = true) (hd : s.diag.isSome = decide (s.mode = .halted .failure))
    (hw : Memory.wf s.prog = true) : BlockInv s where
  spInRange := ⟨by omega, by omega⟩
  slotsHoldValues := by
    intro i h0 h1
    have h := hs i.toNat (by omega)
    rw [Int.toNat_of_nonneg h0] at h
    exact Option.isSome_iff_exists.mp h
  diagExactlyOnFailure := by
    unfold DiagExactlyOnFailure
    rw [← Option.isSome_iff_ne_none, hd, decide_eq_true_eq]
  programCanonical := hw

/-- Every slot of a full stack holds a value. -/
theorem slot_full (program : List Byte) (k : Nat) (h : k < 256) : ((full program).slot k).isSome = true := by
  have h' : k < stackCap := h
  simp [State.slot, slotAt, full, h']

/-! ### WellFormed: an ill-formed term for each check -/

theorem test_wellFormed_refuses_r1_r1 : (Instr.mov 1#4 1#4).wellFormed = false := by decide
theorem test_wellFormed_refuses_r2_r2 : (Instr.mov 2#4 2#4).wellFormed = false := by decide
theorem test_wellFormed_refuses_source_0 : (Instr.mov 0#4 1#4).wellFormed = false := by decide
theorem test_wellFormed_refuses_destination_3 : (Instr.mov 1#4 3#4).wellFormed = false := by decide
theorem test_wellFormed_accepts : (Instr.mov 1#4 2#4).wellFormed = true ∧ (Instr.mov 2#4 1#4).wellFormed = true := by decide

/-! ### Decoding: one word for each constructor, bit by bit from R71, R73, R74 and R75 -/

theorem test_decode_halt : decode [0b00000000#8] = .ok .halt := by decide
theorem test_decode_nop : decode [0b00000001#8] = .ok .nop := by decide
theorem test_decode_dconstM1 : decode [0b00000010#8] = .ok .dconstM1 := by decide
theorem test_decode_dconst0 : decode [0b00000011#8] = .ok .dconst0 := by decide
theorem test_decode_dconst1 : decode [0b00000100#8] = .ok .dconst1 := by decide
theorem test_decode_dconst2 : decode [0b00000101#8] = .ok .dconst2 := by decide
theorem test_decode_dconst :
    decode [0b00000110#8, 0x40#8, 0x09#8, 0x21#8, 0xFB#8, 0x54#8, 0x44#8, 0x2D#8, 0x18#8] = .ok (.dconst 0x400921FB54442D18#64) := by decide
theorem test_decode_add : decode [0b00000111#8] = .ok .add := by decide
theorem test_decode_sub : decode [0b00001000#8] = .ok .sub := by decide
theorem test_decode_mul : decode [0b00001001#8] = .ok .mul := by decide
theorem test_decode_div : decode [0b00001010#8] = .ok .div := by decide
theorem test_decode_neg : decode [0b00001011#8] = .ok .neg := by decide
theorem test_decode_st1 : decode [0b00001100#8] = .ok .st1 := by decide
theorem test_decode_st2 : decode [0b00001101#8] = .ok .st2 := by decide
theorem test_decode_ld1 : decode [0b00001110#8] = .ok .ld1 := by decide
theorem test_decode_ld2 : decode [0b00001111#8] = .ok .ld2 := by decide
theorem test_decode_print : decode [0b00010000#8] = .ok .print := by decide
theorem test_decode_mov : decode [0b00010001#8, 0b00100001#8] = .ok (.mov 2#4 1#4) := by decide
theorem test_decode_first_unassigned : decode [0b00010010#8] = .error (.invalidOpcode 0x12#8) := by decide
theorem test_decode_table_word : decodeTableWord 16 0x2111 = some (.mov 2#4 1#4) ∧ decodeTableWord 8 0x06 = some (.dconst 0#64) ∧
    decodeTableWord 8 0x12 = none := by decide

/-! ### One step of each instruction (95_test_vectors.md; the id of the vector stands in the name) -/

theorem test_X2_halt :
    (after (State.start [0x00#8])).map (fun t => (t.mode, t.pc, t.status)) = some (.halted .success, 1, some 0) := by decide
theorem test_X3_nop : (after (State.start [0x01#8, 0x00#8])).map (fun t => (t.mode, t.pc, t.sp)) = some (.running, 1, -1) := by decide
theorem test_K1_dconstM1 : look [0x02#8] [] = some (1, 0, some 0xBFF0000000000000#64) := by decide +kernel
theorem test_K2_dconst0 : look [0x03#8] [] = some (1, 0, some 0x0000000000000000#64) := by decide +kernel
theorem test_K3_dconst1 : look [0x04#8] [] = some (1, 0, some 0x3FF0000000000000#64) := by decide +kernel
theorem test_K6_dconst1_full : failure (full [0x04#8]) = some (0, 255, record .stackOverflow 0 (some 0x04#8)) := by decide +kernel
theorem test_K4_dconst2 : look [0x05#8] [] = some (1, 0, some 0x4000000000000000#64) := by decide +kernel
theorem test_K5_dconst :
    look [0x06#8, 0x40#8, 0x0C#8, 0x00#8, 0x00#8, 0x00#8, 0x00#8, 0x00#8, 0x00#8] [] = some (9, 0, some 0x400C000000000000#64) := by decide +kernel
theorem test_K8_dconst_short_and_full :
    failure (full [0x06#8, 0x40#8]) = some (0, 255, record .programOverrun 0 (some 0x06#8)) := by decide +kernel
theorem test_A2_add_rounds :
    look [0x07#8] [0x3FB999999999999A#64, 0x3FC999999999999A#64] = some (1, 0, some 0x3FD3333333333334#64) := by decide +kernel
theorem test_A5_add_overflows :
    look [0x07#8] [0x7FEFFFFFFFFFFFFF#64, 0x7FEFFFFFFFFFFFFF#64] = some (1, 0, some 0x7FF0000000000000#64) := by decide +kernel
theorem test_A8_sub_order :
    look [0x08#8] [0x3FF0000000000000#64, 0x4000000000000000#64] = some (1, 0, some 0xBFF0000000000000#64) := by decide +kernel
theorem test_A10_sub_zeros :
    look [0x08#8] [0x8000000000000000#64, 0x0000000000000000#64] = some (1, 0, some 0x8000000000000000#64) := by decide +kernel
theorem test_A14_mul_tie :
    look [0x09#8] [0x0000000000000001#64, 0x3FF8000000000000#64] = some (1, 0, some 0x0000000000000002#64) := by decide +kernel
theorem test_A15_mul_underflow :
    look [0x09#8] [0x0170000000000000#64, 0x3B50000000000000#64] = some (1, 0, some 0x0000000000000001#64) := by decide +kernel
theorem test_A19_div_rounds :
    look [0x0A#8] [0x3FF0000000000000#64, 0x4008000000000000#64] = some (1, 0, some 0x3FD5555555555555#64) := by decide +kernel
theorem test_A22_div_negative_zero :
    failure (loaded [0x0A#8] [0x3FF0000000000000#64, 0x8000000000000000#64]) = some (0, 1, some { kind := .divisionByZero, index := 0, byte := some 0x0A#8, operand := none, a := some 0x3FF0000000000000#64, b := some 0x8000000000000000#64 }) := by decide +kernel
theorem test_A30_neg_payload : look [0x0B#8] [0x7FF8000000000001#64] = some (1, 0, some 0xFFF8000000000001#64) := by decide +kernel
theorem test_A34_neg_empty : failure (loaded [0x0B#8] []) = some (0, -1, record .stackUnderflow 0 (some 0x0B#8)) := by decide +kernel
theorem test_G1_st1 : (after (loaded [0x0C#8] [0x4000000000000000#64])).map (fun t => (t.sp, t.r1, t.r2)) =
    some (-1, 0x4000000000000000#64, 0x0000000000000000#64) := by decide +kernel
theorem test_G2_st2 : (after (loaded [0x0D#8] [0x3FF0000000000000#64, 0xBFF0000000000000#64])).map (fun t => (t.sp, t.r1, t.r2)) =
    some (0, 0x0000000000000000#64, 0xBFF0000000000000#64) := by decide +kernel
theorem test_G3_ld1 : (after ({ State.start [0x0E#8] with r1 := 0x4000000000000000#64 })).map (fun t => (t.sp, t.slot 0)) =
    some (0, some 0x4000000000000000#64) := by decide +kernel
theorem test_G4_ld2 : (after ({ State.start [0x0F#8] with r1 := 0x4000000000000000#64, r2 := 0x3FF0000000000000#64 })).map
    (fun t => (t.sp, t.slot 0)) = some (0, some 0x3FF0000000000000#64) := by decide +kernel
theorem test_G13_ld2_full : failure (full [0x0F#8]) = some (0, 255, record .stackOverflow 0 (some 0x0F#8)) := by decide +kernel
theorem test_O5_print_tie : (after (loaded [0x10#8] [0x3F80000000000000#64])).map (fun t => (t.pc, t.sp, t.out)) =
    some (1, -1, [['0', '.', '0', '0', '7', '8', '1', '2']]) := by decide +kernel
theorem test_O4_print_negative_zero : (after (loaded [0x10#8] [0xBE112E0BE826D695#64])).map (fun t => t.out) =
    some [['-', '0', '.', '0', '0', '0', '0', '0', '0']] := by decide +kernel
theorem test_G7_mov : (after ({ State.start [0x11#8, 0x21#8] with r1 := 0x4014000000000000#64, r2 := 0x401C000000000000#64 })).map
    (fun t => (t.pc, t.r1, t.r2)) = some (2, 0x401C000000000000#64, 0x401C000000000000#64) := by decide
theorem test_G10_mov_illegal :
    failure (loaded [0x11#8, 0xF2#8] []) = some (0, -1, some { kind := .invalidArgument, index := 0, byte := some 0x11#8, operand := some 0xF2#8, a := none, b := none }) := by decide +kernel
theorem test_X5_invalid_opcode :
    failure (State.start [0x12#8, 0x00#8]) = some (0, -1, record .invalidOpcode 0 (some 0x12#8)) := by decide +kernel
theorem test_X1_empty_program : failure (State.start []) = some (0, -1, record .programOverrun 0 none) := by decide +kernel
theorem test_O14_print_largest : (fmt6 0x7FEFFFFFFFFFFFFF#64).length = 316 := by decide +kernel
theorem test_fetch_word : (after (State.reset.withFetchWord 16 0x1211)).map (fun t => t.pc) = some 2 := by decide

/-! ### Witnesses: for each statement with hypotheses, a state and operands that meet them -/

/-- DecodeOfEncodeIsTheInstruction: a legal opcode map. -/
theorem witness_legal_map : opcodeMap.Legal := by
  refine ⟨fun p q => ?_, fun p => ?_⟩
  · cases p <;> cases q <;> decide
  · cases p <;> decide

/-- DecodedBytesAreItsEncoding. -/
theorem witness_decoded_bytes : decodeWith opcodeMap .little [0x11#8, 0x12#8, 0x00#8] = .ok (.mov 1#4 2#4) := by decide

/-- UnassignedBytesRaiseInvalidOpcode, at the first and the last unassigned byte. -/
theorem witness_unassigned :
    ((State.start [0x12#8]).mode = .running ∧ (State.start [0x12#8]).programByte 0 = some 0x12#8 ∧ 0x12 ≤ (0x12#8).toNat) ∧
    (State.start [0xFF#8]).mode = .running ∧ (State.start [0xFF#8]).programByte 0 = some 0xFF#8 ∧ 0x12 ≤ (0xFF#8).toNat := by
  decide

/-- StepRunsTheDecodedInstruction. -/
theorem witness_step_runs_decoded :
    (State.start [0x04#8]).mode = .running ∧ decode (fetchBytes (State.start [0x04#8])) = .ok .dconst1 := by decide

/-- StepRunsTheBytesAtPc. -/
theorem witness_step_runs_bytes : (State.start [0x11#8, 0x12#8]).mode = .running ∧
    ∀ k, k < (Instr.mov 1#4 2#4).length →
      (State.start [0x11#8, 0x12#8]).programByte ((State.start [0x11#8, 0x12#8]).pc + k) = (encode (.mov 1#4 2#4))[k]? := by
  decide

/-- ReadsPastTheEndRaiseProgramOverrun, each clause: the last read inside, the first past the end, and the three fetches. -/
theorem witness_reads :
    (Memory.dense (Memory.ofBytes [0x01#8, 0x02#8, 0x03#8]) = true ∧ 1 + 2 ≤ Memory.extent (Memory.ofBytes [0x01#8, 0x02#8, 0x03#8])) ∧
    Memory.extent (Memory.ofBytes [0x01#8, 0x02#8, 0x03#8]) < 1 + 3 ∧
    ((State.start []).mode = .running ∧ (State.start []).programLength < 0 + 1) ∧
    ((State.start [0x11#8]).mode = .running ∧ (State.start [0x11#8]).programByte 0 = some 0x11#8 ∧
      (State.start [0x11#8]).programLength < 0 + 2) ∧
    (State.start [0x06#8, 0#8, 0#8, 0#8, 0#8, 0#8, 0#8, 0#8]).mode = .running ∧
      (State.start [0x06#8, 0#8, 0#8, 0#8, 0#8, 0#8, 0#8, 0#8]).programByte 0 = some 0x06#8 ∧
      (State.start [0x06#8, 0#8, 0#8, 0#8, 0#8, 0#8, 0#8, 0#8]).programLength < 0 + 9 := by
  decide

/-- HaltedBlockHasNoStep, and the last clause of ModeFollowsTheTransitionTable. -/
theorem witness_halted : (haltSuccess State.reset).mode = .halted .success ∧ (haltSuccess State.reset).mode ≠ .running := by decide

/-- The invariant holds at the start of a run of a short program, with no value on the stack. -/
theorem witness_inv_start : BlockInv (State.start [0x01#8]) ∧ (State.start [0x01#8]).mode = .running :=
  ⟨inv_of 0 rfl (by decide) (fun k h => absurd h (by omega)) rfl (by decide), rfl⟩

/-- ModeFollowsTheTransitionTable and StepRaisesTheFirstFailingCheck: a HALT, a failing step and a step that goes on. -/
theorem witness_transitions :
    (BlockInv (State.start [0x00#8]) ∧ decode (fetchBytes (State.start [0x00#8])) = .ok .halt) ∧
    (BlockInv (State.start [0x07#8]) ∧ firstFailure (State.start [0x07#8]) ≠ none) ∧
    BlockInv (State.start [0x01#8]) ∧ decode (fetchBytes (State.start [0x01#8])) ≠ .ok .halt ∧ firstFailure (State.start [0x01#8]) = none :=
  ⟨⟨inv_of 0 rfl (by decide) (fun k h => absurd h (by omega)) rfl (by decide), by decide⟩,
    ⟨inv_of 0 rfl (by decide) (fun k h => absurd h (by omega)) rfl (by decide), by decide⟩,
    witness_inv_start.1, by decide, by decide⟩

/-- FailuresArePrecise. -/
theorem witness_failure : (State.start [0xFF#8]).mode = .running ∧
    ∃ t, step (State.start [0xFF#8]) = .next t ∧ t.mode = .halted .failure := ⟨rfl, _, rfl, rfl⟩

/-- DiagnosticFieldsFollowTheKind: the kind of the record after one step. -/
def kindAfter (s : State) : Option FatalKind := ((after s).bind State.diag).map Diag.kind

/-- DiagnosticFieldsFollowTheKind, each of the six kinds, from states that meet the invariant. -/
theorem witness_kinds :
    (BlockInv (loaded [0x0A#8] [0x3FF0000000000000#64, 0#64]) ∧
      kindAfter (loaded [0x0A#8] [0x3FF0000000000000#64, 0#64]) = some .divisionByZero) ∧
    (BlockInv (loaded [0x12#8] []) ∧ kindAfter (loaded [0x12#8] []) = some .invalidOpcode) ∧
    (BlockInv (loaded [0x11#8, 0x22#8] []) ∧ kindAfter (loaded [0x11#8, 0x22#8] []) = some .invalidArgument) ∧
    (BlockInv (full [0x0E#8]) ∧ kindAfter (full [0x0E#8]) = some .stackOverflow) ∧
    (BlockInv (loaded [0x07#8] [0#64]) ∧ kindAfter (loaded [0x07#8] [0#64]) = some .stackUnderflow) ∧
    BlockInv (loaded [0x06#8] []) ∧ kindAfter (loaded [0x06#8] []) = some .programOverrun :=
  ⟨⟨inv_of 2 rfl (by decide) (by decide +kernel) rfl (by decide), by decide +kernel⟩,
    ⟨inv_of 0 rfl (by decide) (by decide +kernel) rfl (by decide), by decide +kernel⟩,
    ⟨inv_of 0 rfl (by decide) (by decide +kernel) rfl (by decide), by decide +kernel⟩,
    ⟨inv_of 256 rfl (by decide) (slot_full _) rfl (by decide), by decide +kernel⟩,
    ⟨inv_of 1 rfl (by decide) (by decide +kernel) rfl (by decide), by decide +kernel⟩,
    inv_of 0 rfl (by decide) (by decide +kernel) rfl (by decide), by decide +kernel⟩

/-- NopOnlyAdvances: a NOP at the last index. -/
theorem witness_nop_last : (State.start [0x01#8]).mode = .running ∧ (State.start [0x01#8]).programLength = 0 + 1 := by decide

/-- ConstantsPushTheirPattern, LoadsPushTheRegister and PushAndPopFollowTheirPseudocode: an empty stack, one slot left, a full stack. -/
theorem witness_room :
    (-1 ≤ (State.start []).sp ∧ (State.start []).sp < (stackCap : Int) - 1) ∧
    (-1 ≤ ({ full [] with sp := 254 } : State).sp ∧ ({ full [] with sp := 254 } : State).sp < (stackCap : Int) - 1) ∧
    (full []).sp = (stackCap : Int) - 1 := by
  decide

/-- DconstPushesItsLiteral: the eight literal bytes, with room, with a full stack, and one byte short. -/
theorem witness_literal :
    ((State.start [0x06#8, 1#8, 2#8, 3#8, 4#8, 5#8, 6#8, 7#8, 8#8]).mode = .running ∧
      ∀ k, k < 8 → (State.start [0x06#8, 1#8, 2#8, 3#8, 4#8, 5#8, 6#8, 7#8, 8#8]).programByte (k + 1) = some (BitVec.ofNat 8 (k + 1))) ∧
    (State.start [0x06#8, 1#8, 2#8, 3#8, 4#8, 5#8, 6#8, 7#8, 8#8]).sp = -1 ∧
    (full [0x06#8, 1#8, 2#8, 3#8, 4#8, 5#8, 6#8, 7#8, 8#8]).sp = (stackCap : Int) - 1 ∧
    (State.start [0x06#8, 1#8, 2#8, 3#8, 4#8, 5#8, 6#8, 7#8]).programLength < 0 + 9 := by
  decide

/-- BinaryOperationsTakeTheTopOnTheRight and DivDividesOrFailsOnZero: two values, and a full stack. -/
theorem witness_two_values :
    ((loaded [] [0x3FF0000000000000#64, 0x4000000000000000#64]).sp = 1 ∧
      (loaded [] [0x3FF0000000000000#64, 0x4000000000000000#64]).slot 1 = some 0x4000000000000000#64 ∧
      (loaded [] [0x3FF0000000000000#64, 0x4000000000000000#64]).slot 0 = some 0x3FF0000000000000#64) ∧
    isZeroDivisor 0x4000000000000000#64 = false ∧
    (full []).sp = 255 ∧ (full []).slot 255 = some 0#64 ∧ (full []).slot 254 = some 0#64 := by
  decide +kernel

/-- BinaryOperationsNeedTwoValues, and DIV's last clause: no value and one value. -/
theorem witness_too_few :
    (State.start []).sp = -1 ∧ (loaded [] [0#64]).sp = 0 ∧ ∃ v, (loaded [] [0#64]).slot 0 = some v :=
  ⟨rfl, rfl, 0#64, by decide +kernel⟩

/-- DivDividesOrFailsOnZero: each divisor clause, with the dividend below. -/
theorem witness_divisors :
    ((loaded [] [0x3FF0000000000000#64, 0x0000000000000000#64]).slot 1 = some 0x0000000000000000#64 ∧
      (loaded [] [0x3FF0000000000000#64, 0x8000000000000000#64]).slot 1 = some 0x8000000000000000#64) ∧
    (loaded [] [0x3FF0000000000000#64, 0x0000000000000001#64]).slot 1 = some 0x0000000000000001#64 ∧
    (0x0000000000000001#64 : Word) ≠ 0x0000000000000000#64 ∧ (0x0000000000000001#64 : Word) ≠ 0x8000000000000000#64 := by
  decide +kernel

/-- NegFlipsTheSignOfTheTop, StoresPopIntoTheirRegister, PrintPopsAndEmitsOneLine, PushAndPopFollowTheirPseudocode and
StoreThenLoadRestoresTheStack: one value, a full stack, an empty one. -/
theorem witness_one_value :
    (0 ≤ (loaded [] [0x4000000000000000#64]).sp ∧ (loaded [] [0x4000000000000000#64]).sp ≤ (stackCap : Int) - 1 ∧
      (loaded [] [0x4000000000000000#64]).slot 0 = some 0x4000000000000000#64) ∧
    ((full []).sp ≤ (stackCap : Int) - 1 ∧ (full []).slot 255 = some 0#64) ∧ (State.start []).sp = -1 := by
  decide +kernel

/-- MovReadsItsOperandByte: both copies, an illegal operand, and none. -/
theorem witness_mov_operand :
    ((State.start [0x11#8, 0x12#8]).programByte 0 = some 0x11#8 ∧ (State.start [0x11#8, 0x12#8]).programByte (0 + 1) = some 0x12#8) ∧
    (State.start [0x11#8, 0x21#8]).programByte (0 + 1) = some 0x21#8 ∧
    (State.start [0x11#8, 0x11#8]).programByte (0 + 1) = some 0x11#8 ∧
    (State.start [0x11#8]).programByte 0 = some 0x11#8 ∧ (State.start [0x11#8]).programByte (0 + 1) = none := by
  decide

/-- ArithmeticIsCorrectlyRounded. -/
theorem witness_finite_operands :
    isFinite 0x3FF0000000000000#64 = true ∧ isFinite 0x4008000000000000#64 = true ∧ isZero 0x4008000000000000#64 = false := by decide

/-- NanResultsAreQuiet: a NaN operand, an invalid operation, and a NaN result. -/
theorem witness_nan_results :
    (∃ r, fpu .div 0x7FF0000000000001#64 0x3FF0000000000000#64 = .ok r ∧ isNaN 0x7FF0000000000001#64 = true) ∧
    (∃ r, fpu .add 0x7FF0000000000000#64 0xFFF0000000000000#64 = .ok r ∧
      InvalidOperation .add 0x7FF0000000000000#64 0xFFF0000000000000#64 ∧ isNaN r = true) := by
  refine ⟨⟨_, fpu_div_ok (by decide), by decide⟩, nanResult .add 0x7FF0000000000000#64 0xFFF0000000000000#64, ?_, ?_, ?_⟩
  · have h : (isNaN 0x7FF0000000000000#64 || isNaN 0xFFF0000000000000#64 ||
        addInvalid 0x7FF0000000000000#64 0xFFF0000000000000#64) = true := by decide
    simp only [fpu, fadd, h, if_true]
  · exact ⟨by decide, by decide, by decide⟩
  · exact isNaN_nanResult _ _ _

/-- SignsOfZeroResults: an exact zero from both zeros and from opposite numbers, a non-NaN pair, and non-NaN results. -/
theorem witness_zero_sums :
    (isFinite 0x8000000000000000#64 = true ∧ value 0x8000000000000000#64 + value 0x8000000000000000#64 = 0) ∧
    (isFinite 0x3FF0000000000000#64 = true ∧ isFinite 0xBFF0000000000000#64 = true ∧
      value 0x3FF0000000000000#64 + value 0xBFF0000000000000#64 = 0) ∧
    isNaN 0x3FF0000000000000#64 = false ∧ isNaN (fmul 0x3FF0000000000000#64 0x8000000000000000#64) = false ∧
    isNaN (fdiv 0x8000000000000000#64 0x3FF0000000000000#64) = false := by
  refine ⟨⟨by decide, ?_⟩, ⟨by decide, by decide, ?_⟩, by decide, by decide +kernel, by decide +kernel⟩
  · have h : signedUnits 0x8000000000000000#64 = 0 := by decide
    rw [value_eq_signedUnits, h]
    simp
  · have h : fneg 0x3FF0000000000000#64 = 0xBFF0000000000000#64 := by decide
    rw [← h, value_fneg]
    ring

/-- InfinityArithmeticIsExact, each clause. -/
theorem witness_infinities :
    isInf 0x7FF0000000000000#64 = true ∧ isInf 0xFFF0000000000000#64 = true ∧ isFinite 0x3FF0000000000000#64 = true ∧
    signBit 0x7FF0000000000000#64 = signBit 0x7FF0000000000000#64 ∧ isNaN 0xFFF0000000000000#64 = false ∧
    isZero 0xFFF0000000000000#64 = false ∧ isZero 0x3FF0000000000000#64 = false := by
  decide

/-- InfinityArithmeticIsExact, its last clause: the sum of the largest finite value with itself reaches the bound. -/
theorem witness_overflow : isFinite 0x7FEFFFFFFFFFFFFF#64 = true ∧
    overflowBound ≤ |exactResult .add (value 0x7FEFFFFFFFFFFFFF#64) (value 0x7FEFFFFFFFFFFFFF#64)| := by
  refine ⟨by decide, ?_⟩
  have hs : signBit 0x7FEFFFFFFFFFFFFF#64 = false := by decide
  have hu : 1 * overflowUnits ≤ 2 * magnitude 0x7FEFFFFFFFFFFFFF#64 := by decide +kernel
  have hb := (overflowBound_le_iff (2 * magnitude 0x7FEFFFFFFFFFFFFF#64) 1 (by norm_num)).mpr hu
  have hv : value 0x7FEFFFFFFFFFFFFF#64 + value 0x7FEFFFFFFFFFFFFF#64 =
      (((2 * magnitude 0x7FEFFFFFFFFFFFFF#64 : ℕ) : ℚ) / (1 : ℕ)) / 2 ^ 1074 := by
    rw [value_eq, hs, Nat.cast_mul, Nat.cast_one, div_one, Nat.cast_ofNat]
    simp only [Bool.false_eq_true, if_false, one_mul]
    rw [← two_mul, mul_div_assoc]
  rw [← hv] at hb
  exact le_trans hb (le_abs_self _)

/-- LawsOfTheArithmeticUnit and PrintedTextOfInfinitiesAndNaNs: patterns that are and are not NaNs. -/
theorem witness_nan_patterns :
    isNaN 0x3FF0000000000000#64 = false ∧ isNaN 0x7FF0000000000000#64 = false ∧ isNaN 0xFFF8000000000000#64 = true := by decide

/-- PrintedTextIsTheNearestDecimal, at zero and at the largest finite value. -/
theorem witness_finite_text : isFinite 0x8000000000000000#64 = true ∧ isFinite 0x7FEFFFFFFFFFFFFF#64 = true := by decide

/-- EveryStepKeepsTheInvariant, RunningBlockAlwaysSteps and ProgramStoreIsNeverWritten. -/
theorem witness_step_with_inv : BlockInv (State.start [0x01#8]) ∧ (State.start [0x01#8]).mode = .running ∧
    ∃ t, step (State.start [0x01#8]) = .next t := ⟨witness_inv_start.1, rfl, _, rfl⟩

/-- RunEndsWithinTheProgramLength and SuccessIsDecidedByTheBytesAndZeroDivisors: a run that ends. -/
theorem witness_run : BlockInv (State.start [0x00#8]) ∧ (State.start [0x00#8]).mode = .running ∧
    ∃ t, RunEndsIn (State.start [0x00#8]) 1 t :=
  ⟨inv_of 0 rfl (by decide) (fun k h => absurd h (by omega)) rfl (by decide), rfl, _, rfl, rfl⟩

/-- NanBitsDecideNothingElse: two states with different NaNs in `r1`, of which a step goes on. -/
theorem witness_same_up_to_nan :
    SameUpToNaN { State.start [0x0E#8] with r1 := 0x7FF8000000000000#64 } { State.start [0x0E#8] with r1 := 0xFFF8000000000001#64 } ∧
    ∃ t, step { State.start [0x0E#8] with r1 := 0x7FF8000000000000#64 } = .next t := by
  refine ⟨⟨rfl, rfl, rfl, rfl, .inr ⟨by decide, by decide⟩, .inl rfl, fun i => ?_, .nil, trivial⟩, _, rfl⟩
  have h : ∀ x : Option Word, SameOptional x x := fun x => by
    cases x with
    | none => trivial
    | some v => exact .inl rfl
  exact h _

/-- NanBitsDecideNothingElse, its fault clause: two halted states. -/
theorem witness_same_up_to_nan_halted :
    SameUpToNaN (haltSuccess State.reset) (haltSuccess State.reset) ∧ step (haltSuccess State.reset) = .fault .halted := by
  refine ⟨⟨rfl, rfl, rfl, rfl, .inl rfl, .inl rfl, fun i => ?_, .nil, trivial⟩, rfl⟩
  have h : ∀ x : Option Word, SameOptional x x := fun x => by
    cases x with
    | none => trivial
    | some v => exact .inl rfl
  exact h _

/-- PcMovesOnlyByInstructionLengths: a step that goes on and one that fails. -/
theorem witness_pc_moves :
    (∃ t, step (State.start [0x11#8, 0x12#8]) = .next t ∧ t.mode ≠ .halted .failure) ∧
    ∃ t, step (State.start [0xFF#8]) = .next t ∧ t.mode = .halted .failure :=
  ⟨⟨_, rfl, by decide⟩, _, rfl, rfl⟩

/-- OnlyStoresAndMovWriteRegisters: steps that change each register. -/
theorem witness_register_writes :
    (∃ t, exec .st1 (loaded [] [0x3FF0000000000000#64]) = .next t ∧ t.r1 ≠ (loaded [] [0x3FF0000000000000#64]).r1) ∧
    ∃ t, exec .st2 (loaded [] [0x3FF0000000000000#64]) = .next t ∧ t.r2 ≠ (loaded [] [0x3FF0000000000000#64]).r2 := by
  have h : (loaded [] [0x3FF0000000000000#64]).slot (loaded [] [0x3FF0000000000000#64]).sp = some 0x3FF0000000000000#64 := by
    decide +kernel
  exact ⟨⟨_, exec_popReg rfl h, by decide⟩, _, exec_popReg rfl h, by decide⟩

/-- OnlyPrintEmits: a PRINT that completes. -/
theorem witness_emits : (loaded [0x10#8] [0x3FF0000000000000#64]).mode = .running ∧
    (after (loaded [0x10#8] [0x3FF0000000000000#64])).map (fun t => t.out.length) = some 1 := by
  decide +kernel

/-- StatusFollowsTheMode, each mode. -/
theorem witness_modes : State.reset.mode = .running ∧ (haltSuccess State.reset).mode = .halted .success ∧
    (takeFatal State.reset none .programOverrun).mode = .halted .failure := by decide

end Sys2Proof.Tests
end

section
/-! PROOFS. The output record and the ports `halted` and `status` (10_state.md R43, R44). O48 rests on one frame: every effect but
PRINT's keeps the output record. -/

namespace Sys2Proof.Machine

/-- Everything a step can answer with a next state (41_dispatcher.md R122). -/
theorem step_next {s t : State} (h : step s = .next t) :
    (∃ e, decode (fetchBytes s) = .error e ∧ t = takeFetchError s e) ∨
    ∃ i, decode (fetchBytes s) = .ok i ∧ exec i s = .next t := by
  unfold step at h
  split at h
  · cases h
  · split at h
    · cases h; exact .inl ⟨_, ‹_›, rfl⟩
    · exact .inr ⟨_, ‹_›, h⟩

/-! ### What keeps the output record -/

@[simp] theorem takeFetchError_out (s : State) (e : DecodeError) : (takeFetchError s e).out = s.out := by
  cases e <;> rfl

theorem push_keeps_out {v : Word} {s t : State} (h : push v s = .ok t) : t.out = s.out := by
  rcases push_cases v s with ⟨_, e⟩ | ⟨_, _, e⟩ | ⟨_, e⟩ <;> rw [e] at h <;> cases h
  exact pushed_out s v

theorem popReg_keeps_out {r : Reg} {s t : State} (h : popReg r s = .ok t) : t.out = s.out := by
  rcases pop_cases s with ⟨_, e⟩ | ⟨v, _, e⟩ | ⟨_, _, e⟩ <;> simp only [popReg, e, bind, Except.bind] at h <;> cases h
  exact writeReg_out _ r v

theorem negEffect_keeps_out {s t : State} (h : negEffect s = .ok t) : t.out = s.out := by
  rcases pop_cases s with ⟨_, e⟩ | ⟨v, _, e⟩ | ⟨_, _, e⟩ <;> simp only [negEffect, e, bind, Except.bind] at h
  · cases h
  · rw [push_keeps_out h]
  · cases h

theorem binaryEffect_keeps_out {op : ArithOp} {s t : State} (h : binaryEffect op s = .ok t) : t.out = s.out := by
  rcases binaryEffect_cases op s with ⟨e, _⟩ | ⟨_, _, _, _, _, _, e⟩ | ⟨_, _, _, _, _, _, e⟩ | ⟨e, _⟩ <;>
    rw [e] at h <;> cases h
  rfl

theorem moveReg_keeps_out {src dst : BitVec 4} {s t : State} (h : moveReg src dst s = .ok t) : t.out = s.out := by
  rcases moveReg_cases src dst s with ⟨_, _, e⟩ | ⟨_, _, e⟩ | ⟨_, e⟩ <;> rw [e] at h <;> cases h <;> rfl

/-- The frame of the output record: only PRINT's effect writes it (45_output.md R190). -/
theorem effectOf_keeps_out {i : Instr} {s t : State} (hi : i ≠ .print) (h : effectOf i s = .ok t) : t.out = s.out := by
  cases i with
  | halt => cases h; rfl
  | nop => cases h; rfl
  | dconstM1 | dconst0 | dconst1 | dconst2 | dconst | ld1 | ld2 => exact push_keeps_out h
  | add | sub | mul | div => exact binaryEffect_keeps_out h
  | neg => exact negEffect_keeps_out h
  | st1 | st2 => exact popReg_keeps_out h
  | mov src dst => exact moveReg_keeps_out h
  | print => exact absurd rfl hi

/-- An instruction other than PRINT leaves the output record as it was, whether it completes or fails. -/
theorem exec_keeps_out {i : Instr} {s t : State} (hi : i ≠ .print) (h : exec i s = .next t) : t.out = s.out := by
  rcases exec_next h with he | ⟨k, _, rfl⟩
  · rw [effectOf_keeps_out hi he]
  · exact takeFatal_out ..

/-! ### What PRINT does -/

/-- A PRINT that completes pops the top and emits its text. -/
theorem printEffect_yields {s t : State} (h : printEffect s = .ok t) :
    ∃ x, s.slot s.sp = some x ∧ t = emit (fmt6 x) { s with sp := s.sp - 1 } := by
  rcases pop_cases s with ⟨_, e⟩ | ⟨x, hx, e⟩ | ⟨_, _, e⟩ <;> simp only [printEffect, e, bind, Except.bind] at h <;> cases h
  exact ⟨x, hx, rfl⟩

/-- PRINT either completes, with one line more, or fails in the state it started in. -/
theorem exec_print_next {s t : State} (h : exec .print s = .next t) :
    (t.mode = s.mode ∧ ∃ x, s.slot s.sp = some x ∧ t.out = s.out ++ [fmt6 x]) ∨
    (t.mode = .halted .failure ∧ t.out = s.out) := by
  rcases exec_next h with he | ⟨k, _, rfl⟩
  · obtain ⟨x, hx, rfl⟩ := printEffect_yields he
    exact .inl ⟨rfl, x, hx, rfl⟩
  · exact .inr ⟨rfl, rfl⟩

/-! ### The ports `halted` and `status` -/

theorem halted_iff (s : State) : s.halted = true ↔ ∃ c, s.mode = .halted c := by
  cases h : s.mode <;> simp [State.halted, h]

theorem status_of_running {s : State} (h : s.mode = .running) : s.status = none := by
  simp only [State.status, h]

theorem status_of_success {s : State} (h : s.mode = .halted .success) : s.status = some 0 := by
  simp only [State.status, h]

theorem status_of_failure {s : State} (h : s.mode = .halted .failure) : s.status = some failStatus := by
  simp only [State.status, h]

end Sys2Proof.Machine

namespace Sys2Proof

open Sys2Proof.Machine

/-- Settles O48: a step fails to decode, or runs PRINT, or runs an instruction whose effect keeps the output record. -/
theorem onlyPrintEmits : Obligations.OnlyPrintEmits := by
  intro s t hrun h
  rcases step_next h with ⟨e, he, rfl⟩ | ⟨i, hi, hexec⟩
  · exact .inr ⟨.inl (by simp [he]), takeFetchError_out s e⟩
  · by_cases hp : i = .print
    · subst hp
      rcases exec_print_next hexec with ⟨hm, hout⟩ | ⟨hm, hout⟩
      · exact .inl ⟨hi, hm.trans hrun, hout⟩
      · exact .inr ⟨.inr hm, hout⟩
    · exact .inr ⟨.inl (by simp [hi, hp]), exec_keeps_out hp hexec⟩

/-- Settles O51, by the equation of each port in each mode. -/
theorem statusFollowsTheMode : Obligations.StatusFollowsTheMode := fun s =>
  ⟨halted_iff s, status_of_running, status_of_success, status_of_failure, by decide⟩

end Sys2Proof
end

section
/-! PROOFS. The value stack (20_memory.md R58, R59): what the slots hold after a push, and that a pop undoes `sp`'s move. -/

namespace Sys2Proof.Machine

/-- The slot that `sp` names after a push holds the value pushed. -/
theorem pushed_slot_top {s : State} (v : Word) (h0 : -1 ≤ s.sp) (h1 : s.sp < (stackCap : Int) - 1) :
    (s.pushed v).slot (s.pushed v).sp = some v :=
  slotAt_setSlot_same s.stack (s.sp + 1) v (by omega) (by omega)

/-- A push writes no slot but the one `sp` names after it. -/
theorem pushed_keeps_other_slots {s : State} (v : Word) (h0 : -1 ≤ s.sp) : SlotsKeptBut (s.pushed v).sp s (s.pushed v) :=
  fun i hi => slotAt_setSlot_other s.stack (s.sp + 1) i v (by omega) hi

/-- A pop right after a push returns the value pushed and puts `sp` back; the slot that was written keeps the value. -/
theorem pop_pushed {s : State} (v : Word) (h0 : -1 ≤ s.sp) (h1 : s.sp < (stackCap : Int) - 1) :
    pop (s.pushed v) = .ok (v, { s.pushed v with sp := s.sp }) := by
  have hsp : (s.pushed v).sp - 1 = s.sp := by rw [pushed_sp, add_sub_cancel_right]
  rw [pop_ok (pushed_slot_top v h0 h1), hsp]

end Sys2Proof.Machine

namespace Sys2Proof

open Sys2Proof.Machine

/-- Settles O28, by the rule of each primitive in each case: `push` on a full stack and with room, `pop` on an empty stack and with a
value on top. -/
theorem pushAndPopFollowTheirPseudocode : Obligations.PushAndPopFollowTheirPseudocode := by
  refine ⟨fun s v hfull => push_full v hfull, fun s v h0 h1 => ?room, fun s hempty => pop_empty hempty,
    fun s v _ _ hv => ?value⟩
  case room =>
    exact ⟨s.pushed v, push_ok v h0 h1, pushed_sp s v, pushed_slot_top v h0 h1, pushed_keeps_other_slots v h0,
      pop_pushed v h0 h1⟩
  case value =>
    have hkept : SlotsKept s { s with sp := s.sp - 1 } := fun _ => rfl
    exact ⟨{ s with sp := s.sp - 1 }, pop_ok hv, rfl, hkept⟩

end Sys2Proof
end

section
/-! PROOFS. The dispatcher (41_dispatcher.md): the transitions of `mode` (R121), the operand order of the binary instructions (R124) and
HALT (R127). The table of R121 rests on one agreement: an effect completes only where no check fails, and raises the first that does. -/

namespace Sys2Proof.Machine

/-! ### The zero test as the two zero patterns (40_numeric_decoder.md R112) -/

theorem isZeroDivisor_iff_zero_pattern (b : Word) :
    isZeroDivisor b = true ↔ b = 0x0000000000000000#64 ∨ b = 0x8000000000000000#64 := by
  rw [isZeroDivisor_eq_isZero]
  constructor
  · intro h
    obtain ⟨he, hf⟩ := (isZero_iff b).mp h
    cases hs : signBit b with
    | false => exact .inl (eq_of_fields (hs.trans (by decide)) (he.trans (by decide)) (hf.trans (by decide)))
    | true => exact .inr (eq_of_fields (hs.trans (by decide)) (he.trans (by decide)) (hf.trans (by decide)))
  · rintro (rfl | rfl) <;> decide

/-- The top of the stack is one of the two zero patterns. -/
def ZeroOnTop (s : State) : Prop :=
  s.slot s.sp = some 0x0000000000000000#64 ∨ s.slot s.sp = some 0x8000000000000000#64

theorem zeroOnTop_iff {s : State} {b : Word} (hb : s.slot s.sp = some b) : ZeroOnTop s ↔ isZeroDivisor b = true := by
  rw [ZeroOnTop, hb, isZeroDivisor_iff_zero_pattern, Option.some_inj, Option.some_inj]

/-- A DIV completes only with a divisor that is not zero. -/
theorem not_zeroOnTop_of_div_ok {s t : State} (h : effectOf .div s = .ok t) : ¬ ZeroOnTop s := by
  rcases binaryEffect_cases .div s with ⟨e, _⟩ | ⟨a, b, r, hb, _, hr, _⟩ | ⟨_, _, _, _, _, _, e⟩ | ⟨e, _⟩
  case inr.inl =>
    intro hz
    rw [fpu_div_zero ((zeroOnTop_iff hb).mp hz)] at hr
    cases hr
  all_goals
    rw [effectOf, e] at h
    cases h

/-! ### The first failing check, an equation per check (60_exceptions.md R206) -/

section FirstFailure

variable {i : Instr} {s : State}

theorem firstFailureOf_illegal (hl : i.wellFormed = false) : firstFailureOf i s = some .invalidArgument :=
  if_pos hl

theorem firstFailureOf_short (hl : i.wellFormed = true) (hp : s.sp + 1 < pops i) :
    firstFailureOf i s = some .stackUnderflow := by
  rw [firstFailureOf, if_neg (by simp [hl]), if_pos hp]

theorem firstFailureOf_zero_divisor (hp : 1 ≤ s.sp) (hz : ZeroOnTop s) :
    firstFailureOf .div s = some .divisionByZero := by
  rw [firstFailureOf, if_neg (by decide), if_neg (by simp only [pops]; omega), if_pos ⟨rfl, hz⟩]

/-- Only an instruction that pops nothing can find the stack full. -/
theorem firstFailureOf_full (hl : i.wellFormed = true) (hp : pops i = 0) (hq : pushes i = 1)
    (hfull : s.sp = (stackCap : Int) - 1) : firstFailureOf i s = some .stackOverflow := by
  have hdiv : i ≠ .div := by rintro rfl; cases hp
  rw [firstFailureOf, if_neg (by simp [hl]), if_neg (by omega), if_neg (fun h => hdiv h.1), if_pos (by omega)]

theorem firstFailureOf_eq_none (hl : i.wellFormed = true) (hp : (pops i : Int) ≤ s.sp + 1) (hz : i = .div → ¬ ZeroOnTop s)
    (hroom : s.sp + 1 - (pops i : Int) + (pushes i : Int) ≤ stackCap) : firstFailureOf i s = none := by
  rw [firstFailureOf, if_neg (by simp [hl]), if_neg (by omega), if_neg (fun h => hz h.1 h.2), if_neg (by omega)]

/-- An instruction that pops or pushes has no operand that could be illegal. -/
theorem wellFormed_of_uses_stack (h : 0 < pops i ∨ 0 < pushes i) : i.wellFormed = true := by
  cases i with
  | mov src dst => simp [pops, pushes] at h
  | _ => rfl

/-! ### Effects and the first failing check agree -/

/-- What an effect raises is the first check that fails. -/
theorem firstFailureOf_of_raisesOn {k : FatalInfo} (h : RaisesOn i s k) : firstFailureOf i s = some k.kind := by
  cases k with
  | divisionByZero a b =>
    obtain ⟨rfl, hb, ha, hz⟩ := h
    have hsp := (slotAt_some_inRange ha).1
    exact firstFailureOf_zero_divisor (by omega) ((zeroOnTop_iff hb).mpr hz)
  | invalidArgument m =>
    obtain ⟨_, _, _, hl, _⟩ := h
    exact firstFailureOf_illegal hl
  | stackOverflow =>
    obtain ⟨hp, hq, hfull⟩ := h
    exact firstFailureOf_full (wellFormed_of_uses_stack (by omega)) hp hq hfull
  | stackUnderflow =>
    rcases h with ⟨hp, hsp⟩ | ⟨hp, hsp⟩ <;>
      exact firstFailureOf_short (wellFormed_of_uses_stack (by omega)) (by omega)
  | invalidOpcode => exact h.elim
  | programOverrun => exact h.elim

/-- Where an effect completes, no check fails. -/
theorem firstFailureOf_of_ok {t : State} (hsp : SpInRange s) (h : effectOf i s = .ok t) : firstFailureOf i s = none := by
  obtain ⟨hlo, hhi⟩ := hsp
  have y := effectOf_yields h
  have hpushes : pushes i = 0 ∨ pushes i = 1 := by cases i <;> simp [pushes]
  have henough := y.enough
  have hroom := y.room
  have ht := y.sp
  refine firstFailureOf_eq_none y.legal (by omega) (fun hi => ?_) (by omega)
  subst hi
  exact not_zeroOnTop_of_div_ok h

end FirstFailure

/-! ### The outcomes of a step from a running state -/

theorem takeFetchError_mode (s : State) (e : DecodeError) : (takeFetchError s e).mode = .halted .failure := by
  cases e <;> rfl

/-- Bytes that are no instruction fail a check before any instruction's own. -/
theorem firstFailure_of_error {s : State} {e : DecodeError} (h : decode (fetchBytes s) = .error e) : firstFailure s ≠ none := by
  cases e <;> simp [firstFailure, h]

/-- A decoded instruction's checks read the stack alone, so they come out the same after the fetch. -/
theorem firstFailure_of_ok {s : State} {i : Instr} (h : decode (fetchBytes s) = .ok i) :
    firstFailure s = firstFailureOf i { s with pc := s.pc + i.length } := by
  simp only [firstFailure, h]
  rfl

theorem step_eq_of_error {s : State} {e : DecodeError} (hrun : s.mode = .running) (h : decode (fetchBytes s) = .error e) :
    step s = .next (takeFetchError s e) := by
  simp only [step, hrun, h]

theorem step_eq_of_ok {s : State} {i : Instr} (hrun : s.mode = .running) (h : decode (fetchBytes s) = .ok i) :
    step s = exec i s := by
  simp only [step, hrun, h]

/-- Every step from a running state that meets the invariant: the fetch fails, the effect completes with no check failing, or the
effect raises the first check that fails. -/
theorem step_outcomes {s : State} (hinv : BlockInv s) (hrun : s.mode = .running) :
    (∃ e, decode (fetchBytes s) = .error e ∧ step s = .next (takeFetchError s e)) ∨
    (∃ i t, decode (fetchBytes s) = .ok i ∧ effectOf i { s with pc := s.pc + i.length } = .ok t ∧ firstFailure s = none ∧
      step s = .next t) ∨
    ∃ i k, decode (fetchBytes s) = .ok i ∧ effectOf i { s with pc := s.pc + i.length } = .error (.raise k) ∧
      firstFailure s = some k.kind ∧ step s = .next (takeFatal s (some i.opcodeByte) k) := by
  cases hd : decode (fetchBytes s) with
  | error e => exact .inl ⟨e, rfl, step_eq_of_error hrun hd⟩
  | ok i =>
    have hstep := step_eq_of_ok hrun hd
    have hfirst := firstFailure_of_ok hd
    cases he : effectOf i { s with pc := s.pc + i.length } with
    | ok t =>
      exact .inr (.inl ⟨i, t, rfl, he, hfirst.trans (firstFailureOf_of_ok hinv.spInRange he), hstep.trans (exec_ok he)⟩)
    | error stop =>
      cases stop with
      | raise k =>
        exact .inr (.inr ⟨i, k, rfl, he, hfirst.trans (firstFailureOf_of_raisesOn (effectOf_raises he)),
          hstep.trans (exec_raise he)⟩)
      | model f =>
        exact absurd he (effectOf_never_stops (s := { s with pc := s.pc + i.length }) hinv.spInRange hinv.slotsHoldValues f)

/-! ### The binary instructions (R124) -/

/-- A binary instruction that completes: both operands popped, the result in the slot of the left one, everything else kept. -/
theorem exec_binary_frame {i : Instr} {s : State} {op : ArithOp} {a b r : Word} (hi : effectOf i = binaryEffect op)
    (hb : s.slot s.sp = some b) (ha : s.slot (s.sp - 1) = some a) (hr : fpu op a b = .ok r) :
    ∃ t, exec i s = .next t ∧ Advanced s t i.length ∧ t.sp = s.sp - 1 ∧ t.slot (s.sp - 1) = some r ∧
      SlotsKeptBut (s.sp - 1) s t ∧ t.r1 = s.r1 ∧ t.r2 = s.r2 ∧ t.out = s.out := by
  obtain ⟨h0, h1⟩ := slotAt_some_inRange ha
  have hadv : Advanced s { s with pc := s.pc + i.length, sp := s.sp - 1, stack := setSlot s.stack (s.sp - 1) r } i.length :=
    ⟨rfl, rfl, rfl, fun _ => rfl, rfl⟩
  exact ⟨_, exec_binary hi hb ha hr, hadv, rfl, slotAt_setSlot_same _ _ _ h0 h1,
    fun _ hj => slotAt_setSlot_other _ _ _ _ h0 hj, rfl, rfl, rfl⟩

end Sys2Proof.Machine

namespace Sys2Proof

open Sys2Proof.Machine

/-- Settles O11, by the outcome of the step: a failed fetch and a raised condition halt with failure and are the first failing check,
and a completed effect changes the mode only for HALT, with no check failing. -/
theorem modeFollowsTheTransitionTable : Obligations.ModeFollowsTheTransitionTable := by
  refine ⟨fun s hinv hrun => ?_, fun s t hm h => hm (running_of_step h)⟩
  rcases step_outcomes hinv hrun with ⟨e, hd, hs⟩ | ⟨i, t, hd, he, hnone, hs⟩ | ⟨i, k, hd, he, hsome, hs⟩
  · refine ⟨_, hs, fun hhalt => ?_, fun _ => takeFetchError_mode s e, fun _ hnone => ?_⟩
    · rw [hd] at hhalt; cases hhalt
    · exact absurd hnone (firstFailure_of_error hd)
  · have hmode := (effectOf_yields he).mode
    refine ⟨t, hs, fun hhalt => ?_, fun hfail => absurd hnone hfail, fun hne _ => ?_⟩
    · obtain rfl : i = .halt := Except.ok.inj (hd.symm.trans hhalt)
      exact hmode
    · have hi : i ≠ .halt := by rintro rfl; exact hne hd
      rw [hmode, if_neg hi]
      exact hrun
  · refine ⟨_, hs, fun hhalt => ?_, fun _ => rfl, fun _ hnone => ?_⟩
    · obtain rfl : i = .halt := Except.ok.inj (hd.symm.trans hhalt)
      cases he
    · rw [hsome] at hnone; cases hnone

/-- Settles O20, by the frame of the binary instructions and what the unit answers for each operation. -/
theorem binaryOperationsTakeTheTopOnTheRight : Obligations.BinaryOperationsTakeTheTopOnTheRight := by
  rintro s i f a b (⟨rfl, rfl⟩ | ⟨rfl, rfl⟩ | ⟨rfl, rfl⟩ | ⟨rfl, rfl, hz⟩) _ _ hb ha
  · exact exec_binary_frame (op := .add) rfl hb ha rfl
  · exact exec_binary_frame (op := .sub) rfl hb ha rfl
  · exact exec_binary_frame (op := .mul) rfl hb ha rfl
  · exact exec_binary_frame (op := .div) rfl hb ha (fpu_div_ok hz)

/-- Settles O15: HALT's effect completes in every state, with `pc` past its one byte. -/
theorem haltEndsTheRunWithSuccess : Obligations.HaltEndsTheRunWithSuccess :=
  ⟨rfl, fun s => ⟨haltSuccess { s with pc := s.pc + 1 }, exec_ok rfl, rfl, status_of_success rfl⟩⟩

end Sys2Proof
end

section
/-! PROOFS. What every step keeps: the invariant (10_state.md R28, R29, R45), the program (20_memory.md R51), the registers but for their
writers (R25), `pc` but for instruction lengths (R23), and everything but the record and the mode in a failing step (60_exceptions.md
R204). All rest on one inversion: a next state is a completed effect, or a fatal condition taken in the state before. -/

namespace Sys2Proof.Machine

/-! ### The inversion of a step -/

/-- Bytes that are no instruction raise a fatal condition like any other. -/
theorem takeFetchError_eq_takeFatal (s : State) (e : DecodeError) : ∃ byte k, takeFetchError s e = takeFatal s byte k := by
  cases e with
  | noByte => exact ⟨_, _, rfl⟩
  | invalidOpcode b => exact ⟨_, _, rfl⟩
  | truncated b => exact ⟨_, _, rfl⟩

/-- The two ways a step reaches a next state. -/
theorem step_fatal_or_completed {s t : State} (h : step s = .next t) :
    (∃ byte k, t = takeFatal s byte k) ∨
    ∃ i, decode (fetchBytes s) = .ok i ∧ effectOf i { s with pc := s.pc + i.length } = .ok t := by
  rcases step_next h with ⟨e, _, rfl⟩ | ⟨i, hi, hexec⟩
  · exact .inl (takeFetchError_eq_takeFatal s e)
  · rcases exec_next hexec with he | ⟨k, _, rfl⟩
    · exact .inr ⟨i, hi, he⟩
    · exact .inl ⟨_, k, rfl⟩

/-- A fatal condition leaves the record of its kind and the rest as it was. -/
theorem takeFatal_eq_failedWith (s : State) (byte : Option Byte) (k : FatalInfo) :
    takeFatal s byte k =
      failedWith s k.kind byte (diagOf s.pc byte k).operand (diagOf s.pc byte k).a (diagOf s.pc byte k).b := rfl

/-- A completed effect does not fail the block. -/
theorem yields_mode_ne_failure {i : Instr} {s t : State} (y : Yields i s t) (hrun : s.mode = .running) :
    t.mode ≠ .halted .failure := by
  rw [y.mode, hrun]
  split <;> simp

theorem pushes_zero_or_one (i : Instr) : pushes i = 0 ∨ pushes i = 1 := by
  cases i <;> simp [pushes]

theorem one_le_length (i : Instr) : 1 ≤ i.length := by
  rw [Instr.length]
  cases i.opcode <;> decide

/-! ### The invariant -/

theorem diag_eq_none_of_running {s : State} (hinv : BlockInv s) (hrun : s.mode = .running) : s.diag = none := by
  by_contra hd
  have hfail := hinv.diagExactlyOnFailure.mp hd
  rw [hrun] at hfail
  cases hfail

theorem blockInv_takeFatal {s : State} (hinv : BlockInv s) (byte : Option Byte) (k : FatalInfo) :
    BlockInv (takeFatal s byte k) where
  spInRange := hinv.spInRange
  slotsHoldValues := hinv.slotsHoldValues
  diagExactlyOnFailure := by simp [DiagExactlyOnFailure]
  programCanonical := hinv.programCanonical

/-- `sp` after a completed effect: it rises by at most one, and stays in range. -/
theorem yields_sp_bounds {i : Instr} {s t : State} (y : Yields i s t) (hsp : SpInRange s) :
    SpInRange t ∧ t.sp ≤ s.sp + pushes i := by
  obtain ⟨hlo, hhi⟩ := hsp
  have ht := y.sp
  have henough := y.enough
  have hroom := y.room
  have hpushes := pushes_zero_or_one i
  exact ⟨⟨by omega, by omega⟩, by omega⟩

/-- The slots up to `sp` after a completed effect: those that were there, and the one pushed. -/
theorem slotsHoldValues_of_yields {i : Instr} {s t : State} (y : Yields i s t) (hsp : SpInRange s) (hsl : SlotsHoldValues s) :
    SlotsHoldValues t := by
  have hle := (yields_sp_bounds y hsp).2
  intro j h0 hj
  rcases pushes_zero_or_one i with hq | hq
  · rw [State.slot, y.kept hq]
    exact hsl j h0 (by omega)
  · obtain ⟨v, hv⟩ := y.top hq
    obtain ⟨hr0, hr1⟩ := y.room hq
    rw [State.slot, hv]
    by_cases hjt : j = t.sp
    · rw [hjt]
      exact ⟨v, slotAt_setSlot_same _ _ _ hr0 hr1⟩
    · rw [slotAt_setSlot_other _ _ _ _ hr0 hjt]
      exact hsl j h0 (by omega)

theorem blockInv_of_yields {i : Instr} {s t : State} (y : Yields i s t) (hinv : BlockInv s) (hrun : s.mode = .running) :
    BlockInv t where
  spInRange := (yields_sp_bounds y hinv.spInRange).1
  slotsHoldValues := slotsHoldValues_of_yields y hinv.spInRange hinv.slotsHoldValues
  diagExactlyOnFailure := by
    have hd : t.diag = none := y.diag.trans (diag_eq_none_of_running hinv hrun)
    exact ⟨fun h => absurd hd h, fun h => absurd h (yields_mode_ne_failure y hrun)⟩
  programCanonical := by rw [y.prog]; exact hinv.programCanonical

/-- The invariant does not speak of `pc`. -/
theorem blockInv_withPc {s : State} (hinv : BlockInv s) (p : Nat) : BlockInv { s with pc := p } :=
  ⟨hinv.spInRange, hinv.slotsHoldValues, hinv.diagExactlyOnFailure, hinv.programCanonical⟩

theorem blockInv_step {s t : State} (hinv : BlockInv s) (h : step s = .next t) : BlockInv t := by
  rcases step_fatal_or_completed h with ⟨byte, k, rfl⟩ | ⟨i, _, he⟩
  · exact blockInv_takeFatal hinv byte k
  · have hrun : s.mode = .running := running_of_step h
    exact blockInv_of_yields (effectOf_yields he) (blockInv_withPc hinv _) hrun

/-! ### The program -/

theorem prog_step {s t : State} (h : step s = .next t) : t.prog = s.prog := by
  rcases step_fatal_or_completed h with ⟨byte, k, rfl⟩ | ⟨i, _, he⟩
  · rfl
  · exact (effectOf_yields he).prog

/-! ### The writers of the registers (10_state.md R25) -/

/-- The instructions that write a register. -/
def WritesReg (i : Instr) : Reg → Prop
  | .r1 => i = .st1 ∨ i = .mov 2#4 1#4
  | .r2 => i = .st2 ∨ i = .mov 1#4 2#4

theorem readReg_writeReg_cases (s : State) (r r' : Reg) (v : Word) : readReg (writeReg s r v) r' = readReg s r' ∨ r' = r := by
  by_cases h : r' = r
  · exact .inr h
  · exact .inl (readReg_writeReg_other s r r' v h)

theorem push_keeps_registers {v : Word} {s t : State} (h : push v s = .ok t) (r : Reg) : readReg t r = readReg s r := by
  rcases push_cases v s with ⟨_, e⟩ | ⟨_, _, e⟩ | ⟨_, e⟩ <;> rw [e] at h <;> cases h
  cases r <;> rfl

theorem popReg_keeps_other_register {r : Reg} {s t : State} (h : popReg r s = .ok t) (r' : Reg) :
    readReg t r' = readReg s r' ∨ r' = r := by
  rcases pop_cases s with ⟨_, e⟩ | ⟨v, _, e⟩ | ⟨_, _, e⟩ <;> simp only [popReg, e, bind, Except.bind] at h <;> cases h
  rcases readReg_writeReg_cases { s with sp := s.sp - 1 } r r' v with hk | hk
  · refine .inl (hk.trans ?_)
    cases r' <;> rfl
  · exact .inr hk

theorem negEffect_keeps_registers {s t : State} (h : negEffect s = .ok t) (r : Reg) : readReg t r = readReg s r := by
  rcases pop_cases s with ⟨hs, _⟩ | ⟨v, hv, _⟩ | ⟨_, _, e⟩
  · rw [negEffect_empty hs] at h; cases h
  · rw [negEffect_ok hv] at h
    cases h
    cases r <;> rfl
  · simp only [negEffect, e, bind, Except.bind] at h
    cases h

theorem binaryEffect_keeps_registers {op : ArithOp} {s t : State} (h : binaryEffect op s = .ok t) (r : Reg) :
    readReg t r = readReg s r := by
  rcases binaryEffect_cases op s with ⟨e, _⟩ | ⟨_, _, _, _, _, _, e⟩ | ⟨_, _, _, _, _, _, e⟩ | ⟨e, _⟩ <;>
    rw [e] at h <;> cases h
  cases r <;> rfl

theorem printEffect_keeps_registers {s t : State} (h : printEffect s = .ok t) (r : Reg) : readReg t r = readReg s r := by
  obtain ⟨x, _, rfl⟩ := printEffect_yields h
  cases r <;> rfl

theorem moveReg_keeps_or_writes {src dst : BitVec 4} {s t : State} (h : moveReg src dst s = .ok t) (r : Reg) :
    readReg t r = readReg s r ∨ WritesReg (.mov src dst) r := by
  rcases moveReg_cases src dst s with ⟨rfl, rfl, e⟩ | ⟨rfl, rfl, e⟩ | ⟨_, e⟩ <;> rw [e] at h <;> cases h
  · cases r with
    | r1 => exact .inl rfl
    | r2 => exact .inr (.inr rfl)
  · cases r with
    | r1 => exact .inr (.inr rfl)
    | r2 => exact .inl rfl

/-- An effect keeps each register, unless its instruction is one of the register's writers. -/
theorem effectOf_keeps_or_writes {i : Instr} {s t : State} (h : effectOf i s = .ok t) (r : Reg) :
    readReg t r = readReg s r ∨ WritesReg i r := by
  cases i with
  | halt => cases h; cases r <;> exact .inl rfl
  | nop => cases h; exact .inl rfl
  | dconstM1 | dconst0 | dconst1 | dconst2 | dconst | ld1 | ld2 => exact .inl (push_keeps_registers h r)
  | add | sub | mul | div => exact .inl (binaryEffect_keeps_registers h r)
  | neg => exact .inl (negEffect_keeps_registers h r)
  | print => exact .inl (printEffect_keeps_registers h r)
  | mov src dst => exact moveReg_keeps_or_writes h r
  | st1 =>
    refine (popReg_keeps_other_register h r).imp_right ?_
    rintro rfl
    exact .inl rfl
  | st2 =>
    refine (popReg_keeps_other_register h r).imp_right ?_
    rintro rfl
    exact .inl rfl

theorem exec_keeps_or_writes {i : Instr} {s t : State} (h : exec i s = .next t) (r : Reg) :
    readReg t r = readReg s r ∨ WritesReg i r := by
  rcases exec_next h with he | ⟨k, _, rfl⟩
  · refine (effectOf_keeps_or_writes he r).imp_left fun hk => hk.trans ?_
    cases r <;> rfl
  · cases r <;> exact .inl rfl

/-! ### Reset and the start of a run -/

theorem slotAt_replicate_none (i : Int) : slotAt (Vector.replicate stackCap none) i = none := by
  unfold slotAt
  split
  · rfl
  · rw [Vector.getElem?_replicate]
    split <;> rfl

theorem blockInv_start (program : List Byte) : BlockInv (State.start program) := by
  have hsp : (State.start program).sp = -1 := rfl
  refine ⟨?range, fun i h0 hi => ?slots, ?record, ?canonical⟩
  case range => exact ⟨by omega, by omega⟩
  case slots => omega
  case record => exact ⟨fun hd => absurd rfl hd, fun hm => by cases hm⟩
  case canonical => exact Memory.denseFrom_rising (Memory.dense_ofBytes program)

end Sys2Proof.Machine

namespace Sys2Proof

open Sys2Proof.Machine

/-- Settles O41: a fatal condition writes the record with the mode, and a completed effect keeps `sp` in range and sets the slot it
moves `sp` to. -/
theorem everyStepKeepsTheInvariant : Obligations.EveryStepKeepsTheInvariant :=
  fun _ _ hinv h => blockInv_step hinv h

/-- Settles O42: each outcome of a step from a running state that meets the invariant is a next state. -/
theorem runningBlockAlwaysSteps : Obligations.RunningBlockAlwaysSteps := by
  intro s hinv hrun
  rcases step_outcomes hinv hrun with ⟨e, _, hs⟩ | ⟨i, t, _, _, _, hs⟩ | ⟨i, k, _, _, _, hs⟩
  · exact ⟨_, hs⟩
  · exact ⟨t, hs⟩
  · exact ⟨_, hs⟩

/-- Settles O12, by the outcome of the step: a failed fetch and a raised condition are the first failing check, and a completed effect
leaves no record because a running block has none. -/
theorem stepRaisesTheFirstFailingCheck : Obligations.StepRaisesTheFirstFailingCheck := by
  intro s hinv hrun
  rcases step_outcomes hinv hrun with ⟨e, hd, hs⟩ | ⟨i, t, _, he, hnone, hs⟩ | ⟨i, k, _, _, hsome, hs⟩
  · refine ⟨_, hs, ?_, ?_⟩
    · cases e <;> simp [firstFailure, hd, takeFetchError, diagOf, FatalInfo.kind]
    · simp [firstFailure_of_error hd, takeFetchError_mode]
  · have y := effectOf_yields he
    have hdiag : t.diag = none := y.diag.trans (diag_eq_none_of_running (s := s) hinv hrun)
    exact ⟨t, hs, by rw [hdiag, hnone, Option.map_none], by simp [hnone, yields_mode_ne_failure y hrun]⟩
  · exact ⟨_, hs, by rw [hsome]; rfl, by simp [hsome]⟩

/-- Settles O13: a failing step took a fatal condition, since a completed effect does not fail the block. -/
theorem failuresArePrecise : Obligations.FailuresArePrecise := by
  intro s t hrun h hfail
  refine ⟨status_of_failure hfail, ?_⟩
  rcases step_fatal_or_completed h with ⟨byte, k, rfl⟩ | ⟨i, _, he⟩
  · exact ⟨_, _, _, _, _, takeFatal_eq_failedWith s byte k⟩
  · exact absurd hfail (yields_mode_ne_failure (effectOf_yields he) hrun)

/-- Settles O46: a completed effect keeps the `pc` past the instruction, and a fatal condition keeps the `pc` of the start. -/
theorem pcMovesOnlyByInstructionLengths : Obligations.PcMovesOnlyByInstructionLengths := by
  intro s t hrun h
  rcases step_fatal_or_completed h with ⟨byte, k, rfl⟩ | ⟨i, hi, he⟩
  · exact ⟨fun hne => absurd (takeFatal_mode s byte k) hne, fun _ => takeFatal_pc s byte k⟩
  · have y := effectOf_yields he
    exact ⟨fun _ => ⟨i, hi, y.pc, one_le_length i⟩, fun hfail => absurd hfail (yields_mode_ne_failure y hrun)⟩

/-- Settles O47, by the writers of each register. -/
theorem onlyStoresAndMovWriteRegisters : Obligations.OnlyStoresAndMovWriteRegisters :=
  fun _ _ _ h => ⟨(exec_keeps_or_writes h .r1).resolve_left, (exec_keeps_or_writes h .r2).resolve_left⟩

/-- Settles O49: neither a completed effect nor a fatal condition writes the program. -/
theorem programStoreIsNeverWritten : Obligations.ProgramStoreIsNeverWritten := by
  intro s t h
  have hprog := prog_step h
  exact ⟨hprog, fun i => by rw [State.programByte, hprog, State.programByte]⟩

/-- Settles O38: each field of reset is stated, and no slot of the replicated stack holds a value. -/
theorem resetLeavesTheStatedValues : Obligations.ResetLeavesTheStatedValues :=
  ⟨rfl, rfl, rfl, rfl, rfl, rfl, rfl, slotAt_replicate_none⟩

/-- Settles O39, by the laws of a store that was filled from its first index on. -/
theorem startSuppliesTheProgram : Obligations.StartSuppliesTheProgram := fun program =>
  ⟨Memory.read_ofBytes program, Memory.extent_ofBytes program, Memory.dense_ofBytes program, blockInv_start program, rfl⟩

/-- Settles O40: reset is the start of the empty program. -/
theorem resetMeetsTheInvariant : Obligations.ResetMeetsTheInvariant := blockInv_start []

end Sys2Proof
end

section
/-! PROOFS. The numerics (40_numeric_decoder.md R104 to R112, 43_arithmetic.md R157) and the text of PRINT (45_output.md R191 to R194).
Each operation has one equation per class of its operands; on finite operands it is the exact result, rounded once. -/

namespace Sys2Proof.Machine

/-! ### Classes exclude each other -/

theorem not_isNaN_of_isInf {w : Word} (h : isInf w = true) : isNaN w = false := by
  obtain ⟨_, hf⟩ := (isInf_iff w).mp h
  simp [isNaN, hf]

theorem not_isZero_of_isInf {w : Word} (h : isInf w = true) : isZero w = false := by
  obtain ⟨he, _⟩ := (isInf_iff w).mp h
  simp [isZero, he]

/-- An infinity is the one of its sign. -/
theorem eq_infOf_of_isInf {w : Word} (h : isInf w = true) : w = infOf (signBit w) := by
  obtain ⟨he, hf⟩ := (isInf_iff w).mp h
  obtain ⟨he', hf'⟩ := (isInf_iff _).mp (isInf_infOf (signBit w))
  exact eq_of_fields (signBit_infOf _).symm (he.trans he'.symm) (hf.trans hf'.symm)

theorem eq_of_isInf_of_signBit {v w : Word} (hv : isInf v = true) (hw : isInf w = true) (hs : signBit v = signBit w) : v = w := by
  rw [eq_infOf_of_isInf hv, eq_infOf_of_isInf hw, hs]

theorem eq_negZero_iff (w : Word) : w = 0x8000000000000000#64 ↔ isZero w = true ∧ signBit w = true := by
  constructor
  · rintro rfl
    decide
  · rintro ⟨hz, hs⟩
    rw [← isZeroDivisor_eq_isZero, isZeroDivisor_iff_zero_pattern] at hz
    rcases hz with rfl | rfl
    · exact absurd hs (by decide)
    · rfl

/-! ### NaN results of the unit (40_numeric_decoder.md R107) -/

theorem isNaN_infOf (s : Bool) : isNaN (infOf s) = false := by cases s <;> decide

theorem isNaN_zeroOf (s : Bool) : isNaN (zeroOf s) = false := by cases s <;> decide

/-- The operands for which the result is `NAN_RESULT` (R107). -/
def GivesNaN (op : ArithOp) (a b : Word) : Prop := isNaN a = true ∨ isNaN b = true ∨ InvalidOperation op a b

/-- The shape that the four operations share: `NAN_RESULT` for a NaN operand or an invalid operation, otherwise a number `x`. -/
theorem nan_or_number {op : ArithOp} {a b r x : Word} {invalid : Bool} (hinv : invalid = true ↔ InvalidOperation op a b)
    (hr : r = if isNaN a || isNaN b || invalid then nanResult op a b else x)
    (hx : isNaN a = false → isNaN b = false → isNaN x = false) :
    (GivesNaN op a b ∧ r = nanResult op a b) ∨ (¬ GivesNaN op a b ∧ isNaN r = false) := by
  rw [GivesNaN, ← hinv]
  cases hc : isNaN a || isNaN b || invalid with
  | true =>
    rw [hc, if_pos rfl] at hr
    exact .inl ⟨by simpa [or_assoc] using hc, hr⟩
  | false =>
    rw [hc, if_neg Bool.false_ne_true] at hr
    obtain ⟨⟨ha, hb⟩, hi⟩ : (isNaN a = false ∧ isNaN b = false) ∧ invalid = false := by simpa using hc
    exact .inr ⟨by simp [ha, hb, hi], by rw [hr]; exact hx ha hb⟩

/-- A result is `NAN_RESULT` with a NaN operand and for an invalid operation, and is no NaN for any other operands. -/
theorem fpu_nan_cases {op : ArithOp} {a b r : Word} (hr : fpu op a b = .ok r) :
    (GivesNaN op a b ∧ r = nanResult op a b) ∨ (¬ GivesNaN op a b ∧ isNaN r = false) := by
  cases op with
  | add =>
    cases hr
    exact nan_or_number (invalid := addInvalid a b) (by simp [addInvalid, InvalidOperation, and_assoc]) rfl isNaN_addNumbers
  | sub =>
    cases hr
    refine nan_or_number (invalid := addInvalid a (fneg b)) ?_ rfl (fun ha hb => isNaN_addNumbers ha (by rwa [isNaN_fneg]))
    simp [addInvalid, InvalidOperation, signBit_fneg, and_assoc]
  | mul =>
    cases hr
    refine nan_or_number (invalid := mulInvalid a b) (by simp [mulInvalid, InvalidOperation]) rfl (fun _ _ => ?_)
    split
    · exact isNaN_infOf _
    · exact isNaN_pack_roundMagnitude _ _ _
  | div =>
    have hz : isZeroDivisor b = false := by
      by_contra hz
      rw [fpu_div_zero (by simpa using hz)] at hr
      cases hr
    rw [fpu_div_ok hz] at hr
    rw [isZeroDivisor_eq_isZero] at hz
    cases hr
    refine nan_or_number (invalid := divInvalid a b) (by simp [divInvalid, InvalidOperation, hz]) rfl (fun _ _ => ?_)
    split
    · exact isNaN_infOf _
    · split
      · exact isNaN_zeroOf _
      · exact isNaN_pack_roundMagnitude _ _ _

theorem isNaN_fpu {op : ArithOp} {a b r : Word} (h : isNaN a = true ∨ isNaN b = true) (hr : fpu op a b = .ok r) :
    isNaN r = true := by
  rcases fpu_nan_cases hr with ⟨_, rfl⟩ | ⟨hn, _⟩
  · exact isNaN_nanResult op a b
  · exact absurd (h.imp_right .inl) hn

/-! ### The bits of `fneg` (R108) -/

theorem getLsbD_fneg_of_lt (x : Word) {k : Nat} (hk : k < 63) : (fneg x).getLsbD k = x.getLsbD k := by
  have hmask : (0x8000000000000000#64).getLsbD k = false := by
    rw [BitVec.getLsbD, show (0x8000000000000000#64).toNat = 2 ^ 63 from rfl, Nat.testBit_two_pow]
    simp only [decide_eq_false_iff_not]
    omega
  rw [fneg, BitVec.getLsbD_xor, hmask, Bool.xor_false]

theorem fneg_fneg (x : Word) : fneg (fneg x) = x := by
  rw [fneg, fneg, BitVec.xor_assoc, BitVec.xor_self, BitVec.xor_zero]

/-! ### Sums -/

theorem fadd_of_numbers {a b : Word} (ha : isNaN a = false) (hb : isNaN b = false) (hv : addInvalid a b = false) :
    fadd a b = addNumbers a b := by
  rw [fadd, if_neg (by simp [ha, hb, hv])]

theorem fadd_of_finite {a b : Word} (ha : isFinite a = true) (hb : isFinite b = true) : fadd a b = addFinite a b := by
  have hia := not_isInf_of_isFinite ha
  have hib := not_isInf_of_isFinite hb
  rw [fadd_of_numbers (not_isNaN_of_isFinite ha) (not_isNaN_of_isFinite hb) (by simp [addInvalid, hia])]
  simp [addNumbers, hia, hib]

/-- SUB is ADD of the negation, on invalid pairs too (R109). -/
theorem fsub_eq_fadd_fneg {a b : Word} (ha : isNaN a = false) (hb : isNaN b = false) : fsub a b = fadd a (fneg b) := by
  simp [fsub, fadd, nanResult, nanChoice, ha, hb]

/-- A zero sum is `-0` only for two negative zeros (R109). -/
theorem addFinite_of_zero_sum {a b : Word} (h : value a + value b = 0) :
    addFinite a b =
      if a = 0x8000000000000000#64 ∧ b = 0x8000000000000000#64 then 0x8000000000000000#64 else 0x0000000000000000#64 := by
  have hsum : signedUnits a + signedUnits b = 0 := by
    rw [value_eq_signedUnits, value_eq_signedUnits, ← add_div, div_eq_zero_iff] at h
    exact_mod_cast h.resolve_right (by positivity)
  simp only [addFinite, hsum, if_true]
  by_cases hs : signBit a = true ∧ signBit b = true
  · obtain ⟨hsa, hsb⟩ := hs
    simp only [signedUnits, hsa, hsb, if_true] at hsum
    have hza : isZero a = true := (magnitude_eq_zero a).mp (by omega)
    have hzb : isZero b = true := (magnitude_eq_zero b).mp (by omega)
    rw [if_pos ⟨(eq_negZero_iff a).mpr ⟨hza, hsa⟩, (eq_negZero_iff b).mpr ⟨hzb, hsb⟩⟩, hsa, hsb]
    decide
  · have hand : (signBit a && signBit b) = false := by simpa using hs
    rw [if_neg (fun h => hs ⟨((eq_negZero_iff a).mp h.1).2, ((eq_negZero_iff b).mp h.2).2⟩), hand]
    decide

theorem addInvalid_comm (a b : Word) : addInvalid a b = addInvalid b a := by
  rw [addInvalid, addInvalid, Bool.and_comm (isInf a), bne_comm]

theorem addFinite_comm (a b : Word) : addFinite a b = addFinite b a := by
  rw [addFinite, addFinite, Int.add_comm, Bool.and_comm]

theorem addNumbers_comm {a b : Word} (h : addInvalid a b = false) : addNumbers a b = addNumbers b a := by
  by_cases ha : isInf a = true <;> by_cases hb : isInf b = true
  · have hs : signBit a = signBit b := by simpa [addInvalid, ha, hb] using h
    rw [eq_of_isInf_of_signBit ha hb hs]
  · simp [addNumbers, ha, hb]
  · simp [addNumbers, ha, hb]
  · simp [addNumbers, ha, hb, addFinite_comm a b]

/-- The NaN of an invalid sum does not depend on the order: the operands are put in one (R157, log 6). -/
theorem nanResult_add_comm {a b : Word} (ha : isNaN a = false) (hb : isNaN b = false) (h : addInvalid a b = true) :
    nanResult .add a b = nanResult .add b a := by
  have hs : signBit a = !signBit b := by
    obtain ⟨_, hne⟩ : (isInf a = true ∧ isInf b = true) ∧ signBit a ≠ signBit b := by simpa [addInvalid] using h
    exact Bool.eq_not_of_ne hne
  cases hb' : signBit b <;> simp [nanResult, nanChoice, ha, hb, hs, hb']

theorem fadd_comm {a b : Word} (ha : isNaN a = false) (hb : isNaN b = false) : fadd a b = fadd b a := by
  cases h : addInvalid a b with
  | true =>
    have h' : addInvalid b a = true := by rw [addInvalid_comm, h]
    simp [fadd, h, h', nanResult_add_comm ha hb h]
  | false =>
    have h' : addInvalid b a = false := by rw [addInvalid_comm, h]
    rw [fadd_of_numbers ha hb h, fadd_of_numbers hb ha h', addNumbers_comm h]

/-! ### Products -/

theorem fmul_of_numbers {a b : Word} (ha : isNaN a = false) (hb : isNaN b = false) (hv : mulInvalid a b = false) :
    fmul a b = if isInf a || isInf b then infOf (signXor a b)
      else pack (signXor a b) (roundMagnitude (magnitude a * magnitude b) unitsPerOne) := by
  rw [fmul, if_neg (by simp [ha, hb, hv])]

theorem fmul_of_finite {a b : Word} (ha : isFinite a = true) (hb : isFinite b = true) :
    fmul a b = pack (signXor a b) (roundMagnitude (magnitude a * magnitude b) unitsPerOne) := by
  have hia := not_isInf_of_isFinite ha
  have hib := not_isInf_of_isFinite hb
  rw [fmul_of_numbers (not_isNaN_of_isFinite ha) (not_isNaN_of_isFinite hb) (by simp [mulInvalid, hia, hib]),
    if_neg (by simp [hia, hib])]

theorem fmul_of_infinity {a b : Word} (ha : isNaN a = false) (hb : isNaN b = false) (hv : mulInvalid a b = false)
    (h : isInf a = true ∨ isInf b = true) : fmul a b = infOf (signXor a b) := by
  rw [fmul_of_numbers ha hb hv, if_pos (by simpa using h)]

theorem signXor_comm (a b : Word) : signXor a b = signXor b a := bne_comm

theorem mulInvalid_comm (a b : Word) : mulInvalid a b = mulInvalid b a := by
  rw [mulInvalid, mulInvalid, Bool.or_comm, Bool.and_comm (isInf a), Bool.and_comm (isZero a)]

/-- The NaN of an invalid product does not depend on the order: exactly one operand is an infinity (R157, log 6). -/
theorem nanResult_mul_comm {a b : Word} (ha : isNaN a = false) (hb : isNaN b = false) (h : mulInvalid a b = true) :
    nanResult .mul a b = nanResult .mul b a := by
  have hone : (isInf a = false ∧ isInf b = true) ∨ (isInf a = true ∧ isInf b = false) := by
    have hne : ∀ w : Word, isZero w = true → isInf w = false := fun w hz => by
      by_contra hi
      rw [not_isZero_of_isInf (by simpa using hi)] at hz
      cases hz
    have hc : (isZero a = true ∧ isInf b = true) ∨ (isInf a = true ∧ isZero b = true) := by simpa [mulInvalid] using h
    exact hc.imp (.imp_left (hne a)) (.imp_right (hne b))
  rcases hone with ⟨hia, hib⟩ | ⟨hia, hib⟩ <;> simp [nanResult, nanChoice, ha, hb, hia, hib]

theorem fmul_comm {a b : Word} (ha : isNaN a = false) (hb : isNaN b = false) : fmul a b = fmul b a := by
  cases h : mulInvalid a b with
  | true =>
    have h' : mulInvalid b a = true := by rw [mulInvalid_comm, h]
    simp [fmul, h, h', nanResult_mul_comm ha hb h]
  | false =>
    have h' : mulInvalid b a = false := by rw [mulInvalid_comm, h]
    rw [fmul_of_numbers ha hb h, fmul_of_numbers hb ha h', signXor_comm, Bool.or_comm, Nat.mul_comm]

/-! ### Quotients -/

theorem fdiv_of_numbers {a b : Word} (ha : isNaN a = false) (hb : isNaN b = false) (hv : divInvalid a b = false) :
    fdiv a b = if isInf a || isZero b then infOf (signXor a b)
      else if isInf b then zeroOf (signXor a b)
      else pack (signXor a b) (roundMagnitude (magnitude a * unitsPerOne) (magnitude b)) := by
  rw [fdiv, if_neg (by simp [ha, hb, hv])]

theorem fdiv_of_finite {a b : Word} (ha : isFinite a = true) (hb : isFinite b = true) (hz : isZero b = false) :
    fdiv a b = pack (signXor a b) (roundMagnitude (magnitude a * unitsPerOne) (magnitude b)) := by
  have hia := not_isInf_of_isFinite ha
  have hib := not_isInf_of_isFinite hb
  rw [fdiv_of_numbers (not_isNaN_of_isFinite ha) (not_isNaN_of_isFinite hb) (by simp [divInvalid, hia, hz]),
    if_neg (by simp [hia, hz]), if_neg (by simp [hib])]

/-! ### The signs of products and quotients (R109) -/

theorem signBit_zeroOf (s : Bool) : signBit (zeroOf s) = s := by cases s <;> decide

theorem signBit_fmul {a b : Word} (h : isNaN (fmul a b) = false) : signBit (fmul a b) = signXor a b := by
  unfold fmul at h ⊢
  split_ifs at h ⊢ with hnan hinf
  · rw [isNaN_nanResult] at h
    cases h
  · exact signBit_infOf _
  · exact signBit_pack (roundMagnitude_lt _ _)

theorem signBit_fdiv {a b : Word} (h : isNaN (fdiv a b) = false) : signBit (fdiv a b) = signXor a b := by
  unfold fdiv at h ⊢
  split_ifs at h ⊢ with hnan hinf hzero
  · rw [isNaN_nanResult] at h
    cases h
  · exact signBit_infOf _
  · exact signBit_zeroOf _
  · exact signBit_pack (roundMagnitude_lt _ _)

/-! ### Correct rounding (R104, R105) -/

theorem cast_one_shiftLeft (n : ℕ) : ((1 <<< n : ℕ) : ℚ) = 2 ^ n := by
  rw [Nat.one_shiftLeft, Nat.cast_pow, Nat.cast_ofNat]

theorem unitsPerOne_eq : (unitsPerOne : ℚ) = 2 ^ 1074 := cast_one_shiftLeft 1074

/-- The sign of a product or a quotient of signed numbers. -/
theorem sign_mul_sign (a b : Word) :
    (if signXor a b then (-1 : ℚ) else 1) = (if signBit a then -1 else 1) * (if signBit b then -1 else 1) := by
  cases ha : signBit a <;> cases hb : signBit b <;> simp [signXor, ha, hb]

theorem sign_div_sign (a b : Word) :
    (if signXor a b then (-1 : ℚ) else 1) = (if signBit a then -1 else 1) / (if signBit b then -1 else 1) := by
  cases ha : signBit a <;> cases hb : signBit b <;> simp [signXor, ha, hb]

theorem product_rounded (a b : Word) :
    CorrectlyRounded (value a * value b) (pack (signXor a b) (roundMagnitude (magnitude a * magnitude b) unitsPerOne)) := by
  refine correctlyRounded_pack _ _ _ (by decide) _ ?_
  rw [value_eq, value_eq, sign_mul_sign, unitsPerOne_eq, Nat.cast_mul]
  generalize (2 : ℚ) ^ 1074 = u
  ring

theorem quotient_rounded (a b : Word) (hz : isZero b = false) :
    CorrectlyRounded (value a / value b) (pack (signXor a b) (roundMagnitude (magnitude a * unitsPerOne) (magnitude b))) := by
  have hb : magnitude b ≠ 0 := fun h => by
    rw [(magnitude_eq_zero b).mp h] at hz
    cases hz
  refine correctlyRounded_pack _ _ _ (Nat.pos_of_ne_zero hb) _ ?_
  have hu : (2 : ℚ) ^ 1074 ≠ 0 := by positivity
  rw [value_eq, value_eq, sign_div_sign, Nat.cast_mul, unitsPerOne_eq]
  generalize (2 : ℚ) ^ 1074 = u at hu
  rw [mul_div_mul_comm, div_div_div_cancel_right₀ hu, mul_div_right_comm, mul_div_cancel_right₀ _ hu]

/-- Every operation of the unit on finite operands, rounded once from its exact result. -/
theorem fpu_rounded {op : ArithOp} {a b : Word} (ha : isFinite a = true) (hb : isFinite b = true)
    (hz : op = .div → isZero b = false) :
    ∃ r, fpu op a b = .ok r ∧ CorrectlyRounded (exactResult op (value a) (value b)) r := by
  cases op with
  | add => exact ⟨_, rfl, by rw [fadd_of_finite ha hb]; exact addFinite_rounded a b⟩
  | sub =>
    refine ⟨_, rfl, ?_⟩
    rw [fsub_eq_fadd_fneg (not_isNaN_of_isFinite ha) (not_isNaN_of_isFinite hb), fadd_of_finite ha (by rwa [isFinite_fneg]),
      exactResult, sub_eq_add_neg, ← value_fneg]
    exact addFinite_rounded a (fneg b)
  | mul => exact ⟨_, rfl, by rw [fmul_of_finite ha hb]; exact product_rounded a b⟩
  | div =>
    have hzb := hz rfl
    refine ⟨_, fpu_div_ok (by rwa [isZeroDivisor_eq_isZero]), ?_⟩
    rw [fdiv_of_finite ha hb hzb]
    exact quotient_rounded a b hzb

/-- From the overflow bound on, the correctly rounded pattern is the infinity of the sign. -/
theorem eq_infOf_of_correctlyRounded {x : ℚ} {r : Word} (h : CorrectlyRounded x r) (hx : overflowBound ≤ |x|) :
    r = infOf (decide (x < 0)) := by
  rw [CorrectlyRounded, if_pos hx] at h
  obtain ⟨hinf, hsign⟩ := h
  rw [← hsign]
  exact eq_infOf_of_isInf hinf

/-! ### The text of a finite value (45_output.md R191) -/

theorem fmt6_of_finite {x : Word} (h : isFinite x = true) :
    fmt6 x = signText (signBit x) ++ decimal (roundedMillionths .halfEven x / 1000000) ++ ['.'] ++
      pad6 (roundedMillionths .halfEven x % 1000000) := by
  rw [fmt6, fmt6With, not_isNaN_of_isFinite h, not_isInf_of_isFinite h]
  rfl

theorem fmt6_of_isNaN {x : Word} (h : isNaN x = true) : fmt6 x = printNanText (signBit x) := by
  rw [fmt6, fmt6With, if_pos h]

theorem fmt6_of_isNaN_cases {x : Word} (h : isNaN x = true) : fmt6 x = printNanText true ∨ fmt6 x = printNanText false := by
  rw [fmt6_of_isNaN h]
  cases signBit x
  · exact .inr rfl
  · exact .inl rfl

end Sys2Proof.Machine

namespace Sys2Proof

open Sys2Proof.Machine

/-- Settles O29, by the rounding law of each operation. -/
theorem arithmeticIsCorrectlyRounded : Obligations.ArithmeticIsCorrectlyRounded :=
  fun _ _ _ ha hb hz => fpu_rounded ha hb hz

/-- Settles O30, by the two classes of a result: `NAN_RESULT`, which is quiet, or a number. -/
theorem nanResultsAreQuiet : Obligations.NanResultsAreQuiet := by
  intro op a b r hr
  rcases fpu_nan_cases hr with ⟨hcause, rfl⟩ | ⟨hno, hnum⟩
  · exact ⟨fun _ => ⟨rfl, nanResult_quiet op a b⟩, fun _ => hcause⟩
  · exact ⟨fun hcause => absurd hcause hno, fun hn => by rw [hnum] at hn; cases hn⟩

/-- Settles O31, bit by bit. -/
theorem fnegFlipsBit63 : Obligations.FnegFlipsBit63 :=
  fun x => ⟨signBit_fneg x, fun _ hk => getLsbD_fneg_of_lt x hk⟩

/-- Settles O32, by the zero sums of ADD and the sign every product and quotient is packed with. -/
theorem signsOfZeroResults : Obligations.SignsOfZeroResults := by
  refine ⟨fun a b ha hb h => ?_, fun _ _ ha hb => fsub_eq_fadd_fneg ha hb, fun _ _ h => signBit_fmul h,
    fun _ _ h => signBit_fdiv h⟩
  rw [fadd_of_finite ha hb]
  exact addFinite_of_zero_sum h

/-- Settles O33: the equations of each operation on infinities, and the overflow of a correctly rounded result. -/
theorem infinityArithmeticIsExact : Obligations.InfinityArithmeticIsExact := by
  refine ⟨fun a b ha hb => ?sum, fun a b ha hb hs => ?likeSum, fun a b ha hb hz => ?product, fun a b ha hb => ?toZero,
    fun a b ha hb hz => ?quotient, fun op a b ha hb hz hx => ?overflow⟩
  case sum =>
    have hib := not_isInf_of_isFinite hb
    have hna := not_isNaN_of_isInf ha
    have hnb := not_isNaN_of_isFinite hb
    rw [fadd_comm hnb hna, and_self, fadd_of_numbers hna hnb (by simp [addInvalid, hib]), addNumbers, if_pos ha]
  case likeSum =>
    rw [fadd_of_numbers (not_isNaN_of_isInf ha) (not_isNaN_of_isInf hb) (by simp [addInvalid, hs]), addNumbers, if_pos ha]
  case product =>
    have hna := not_isNaN_of_isInf ha
    have hv : mulInvalid a b = false := by simp [mulInvalid, hz, not_isZero_of_isInf ha]
    rw [fmul_comm hb hna, and_self]
    exact fmul_of_infinity hna hb hv (.inl ha)
  case toZero =>
    have hia := not_isInf_of_isFinite ha
    have hzb := not_isZero_of_isInf hb
    rw [fdiv_of_numbers (not_isNaN_of_isFinite ha) (not_isNaN_of_isInf hb) (by simp [divInvalid, hia, hzb]),
      if_neg (by simp [hia, hzb]), if_pos hb]
    rfl
  case quotient =>
    have hib := not_isInf_of_isFinite hb
    rw [fdiv_of_numbers (not_isNaN_of_isInf ha) (not_isNaN_of_isFinite hb) (by simp [divInvalid, hib, hz]),
      if_pos (by simp [ha])]
    rfl
  case overflow =>
    obtain ⟨r, hr, hround⟩ := fpu_rounded ha hb hz
    rw [hr, eq_infOf_of_correctlyRounded hround hx]

/-- Settles O35: a zero is a pattern with empty exponent and fraction, and there are two of those. -/
theorem zeroTestHoldsOnBothZeros : Obligations.ZeroTestHoldsOnBothZeros := isZeroDivisor_iff_zero_pattern

/-- Settles O36, by the laws of the digits and of the rounding to millionths. -/
theorem printedTextIsTheNearestDecimal : Obligations.PrintedTextIsTheNearestDecimal := by
  intro x hx
  set q := roundedMillionths .halfEven x with hq
  obtain ⟨hip, hipv, hipne, hiplead⟩ := decimal_spec (q / 1000000)
  obtain ⟨hfp, hfpv, hfplen⟩ := pad6_spec (q % 1000000) (Nat.mod_lt q (by norm_num))
  refine ⟨decimal (q / 1000000), pad6 (q % 1000000), fmt6_of_finite hx, hip, hipne, hiplead, hfp, hfplen, ?_⟩
  rw [hipv, hfpv, Nat.div_add_mod', hq]
  exact roundedMillionths_nearest x

/-- Settles O37: the texts of the infinities are evaluated, and that of a NaN depends on its sign bit alone. -/
theorem printedTextOfInfinitiesAndNaNs : Obligations.PrintedTextOfInfinitiesAndNaNs := by
  refine ⟨by decide, by decide, fun x hx => ?_⟩
  rw [fmt6_of_isNaN hx]
  cases signBit x <;> rfl

end Sys2Proof
end

section
/-! PROOFS. The laws of the arithmetic unit (43_arithmetic.md R157): commutation by the commuted equations of ADD and MUL, and operands on
which SUB and DIV do not commute and no operation associates. The counterexamples for ADD, SUB and MUL are evaluated near the smallest
subnormal, where the numbers are small; those for DIV are exact quotients of powers of two, known by correct rounding. -/

namespace Sys2Proof.Machine

/-! ### Exact quotients of powers of two -/

/-- The value of a positive pattern with an empty fraction. -/
theorem value_of_power {w : Word} (hs : signBit w = false) (he : expField w ≠ 0) (hf : fracField w = 0) :
    value w = (2 : ℚ) ^ ((expField w : ℤ) - 1023) := by
  have hsplit : ((expField w : ℤ) - 1023) = (52 : ℕ) + ((expField w : ℤ) - 1075) := by push_cast; ring
  rw [value, hs, if_neg he, hf, hsplit, zpow_add₀ two_ne_zero, zpow_natCast]
  simp

theorem value_quarter : value 0x3FD0000000000000#64 = 1 / 4 := by
  rw [value_of_power (by decide) (by decide) (by decide), show expField 0x3FD0000000000000#64 = 1021 by decide]
  norm_num

theorem value_half : value 0x3FE0000000000000#64 = 1 / 2 := by
  rw [value_of_power (by decide) (by decide) (by decide), show expField 0x3FE0000000000000#64 = 1022 by decide]
  norm_num

theorem value_one : value 0x3FF0000000000000#64 = 1 := by
  rw [value_of_power (by decide) (by decide) (by decide), show expField 0x3FF0000000000000#64 = 1023 by decide]
  norm_num

theorem value_two : value 0x4000000000000000#64 = 2 := by
  rw [value_of_power (by decide) (by decide) (by decide), show expField 0x4000000000000000#64 = 1024 by decide]
  norm_num

theorem two_lt_overflowBound : 2 < overflowBound := by
  have hpow : (2 : ℚ) ^ 1024 = 2 ^ 54 * 2 ^ 970 := by rw [← pow_add]
  have hone : (1 : ℚ) ≤ 2 ^ 970 := one_le_pow₀ (by norm_num)
  rw [overflowBound, hpow]
  generalize (2 : ℚ) ^ 970 = u at hone
  linarith

/-- A number that is a value of a pattern rounds to that value. -/
theorem value_eq_of_correctlyRounded {r w : Word} (h : CorrectlyRounded (value w) r) (hw : isFinite w = true)
    (hsmall : |value w| ≤ 2) : isFinite r = true ∧ value r = value w := by
  rw [CorrectlyRounded, if_neg (not_le.mpr (lt_of_le_of_lt hsmall two_lt_overflowBound))] at h
  obtain ⟨hfin, hnearest, _⟩ := h
  have hzero := hnearest w hw
  rw [sub_self, abs_zero, abs_nonpos_iff, sub_eq_zero] at hzero
  exact ⟨hfin, hzero⟩

theorem isZero_eq_false_of_value_ne_zero {w : Word} (h : value w ≠ 0) : isZero w = false := by
  by_contra hz
  rw [Bool.not_eq_false, ← magnitude_eq_zero] at hz
  rw [value_eq, hz] at h
  simp at h

/-- A quotient of finite values that is the value of a pattern is exact. -/
theorem fdiv_exact {a b w : Word} (ha : isFinite a = true) (hb : isFinite b = true) (hw : isFinite w = true)
    (hb0 : value b ≠ 0) (hv : value a / value b = value w) (hsmall : |value w| ≤ 2) :
    isFinite (fdiv a b) = true ∧ value (fdiv a b) = value w := by
  have hz := isZero_eq_false_of_value_ne_zero hb0
  have hround := quotient_rounded a b hz
  rw [← fdiv_of_finite ha hb hz, hv] at hround
  exact value_eq_of_correctlyRounded hround hw hsmall

theorem fdiv_one_two : isFinite (fdiv 0x3FF0000000000000#64 0x4000000000000000#64) = true ∧
    value (fdiv 0x3FF0000000000000#64 0x4000000000000000#64) = 1 / 2 := by
  rw [← value_half]
  apply fdiv_exact (by decide) (by decide) (by decide) <;> norm_num [value_half, value_one, value_two, abs_of_pos]

theorem fdiv_two_one : isFinite (fdiv 0x4000000000000000#64 0x3FF0000000000000#64) = true ∧
    value (fdiv 0x4000000000000000#64 0x3FF0000000000000#64) = 2 := by
  rw [← value_two]
  apply fdiv_exact (by decide) (by decide) (by decide) <;> norm_num [value_one, value_two]

theorem fdiv_two_two : isFinite (fdiv 0x4000000000000000#64 0x4000000000000000#64) = true ∧
    value (fdiv 0x4000000000000000#64 0x4000000000000000#64) = 1 := by
  rw [← value_one]
  apply fdiv_exact (by decide) (by decide) (by decide) <;> norm_num [value_one, value_two]

/-- `1 / 2` is not `2 / 1`. -/
theorem fdiv_not_comm : fdiv 0x3FF0000000000000#64 0x4000000000000000#64 ≠ fdiv 0x4000000000000000#64 0x3FF0000000000000#64 := by
  intro h
  have hv := fdiv_one_two.2
  rw [h, fdiv_two_one.2] at hv
  norm_num at hv

/-- `(1 / 2) / 2` is not `1 / (2 / 2)`. -/
theorem fdiv_not_assoc : fdiv (fdiv 0x3FF0000000000000#64 0x4000000000000000#64) 0x4000000000000000#64 ≠
    fdiv 0x3FF0000000000000#64 (fdiv 0x4000000000000000#64 0x4000000000000000#64) := by
  obtain ⟨hfin, hhalf⟩ := fdiv_one_two
  obtain ⟨hfin', hone⟩ := fdiv_two_two
  intro h
  have hleft : value (fdiv (fdiv 0x3FF0000000000000#64 0x4000000000000000#64) 0x4000000000000000#64) =
      value 0x3FD0000000000000#64 := by
    apply (fdiv_exact hfin (by decide) (by decide) _ _ _).2 <;> norm_num [hhalf, value_two, value_quarter, abs_of_pos]
  have hright : value (fdiv 0x3FF0000000000000#64 (fdiv 0x4000000000000000#64 0x4000000000000000#64)) =
      value 0x3FF0000000000000#64 := by
    apply (fdiv_exact (by decide) hfin' (by decide) _ _ _).2 <;> norm_num [hone, value_one]
  rw [h, hright, value_one, value_quarter] at hleft
  norm_num at hleft

end Sys2Proof.Machine

namespace Sys2Proof

open Sys2Proof.Machine

/-- Settles O34: ADD and MUL by their commuted equations, NEG by its bits, and a counterexample for each law that fails: differences of the
smallest subnormal, a sum whose tie is rounded away, a product that underflows in one order, and quotients of powers of two. -/
theorem lawsOfTheArithmeticUnit : Obligations.LawsOfTheArithmeticUnit := by
  refine ⟨fun a b ha hb => ⟨fadd_comm ha hb, fmul_comm ha hb⟩, fun a b h => ?nan, fneg_fneg,
    ⟨0x0000000000000001#64, 0x0000000000000000#64, ?sub⟩,
    ⟨0x3FF0000000000000#64, 0x4000000000000000#64, fdiv_one_two.1, fdiv_two_one.1, fdiv_not_comm⟩, ?assoc⟩
  case nan =>
    exact ⟨isNaN_fpu (op := .add) h rfl, isNaN_fpu (op := .add) h.symm rfl, isNaN_fpu (op := .mul) h rfl,
      isNaN_fpu (op := .mul) h.symm rfl⟩
  case sub => decide
  case assoc =>
    simp only [List.forall_mem_cons, List.not_mem_nil, false_imp_iff, implies_true, and_true]
    refine ⟨⟨0x0020000000000000#64, 0x0000000000000001#64, 0x0000000000000001#64, ?_⟩,
      ⟨0x0000000000000001#64, 0x0000000000000001#64, 0x0000000000000001#64, ?_⟩,
      ⟨0x3FE0000000000000#64, 0x0000000000000001#64, 0x4000000000000000#64, ?_⟩,
      ⟨_, _, _, by decide, by decide, by decide, fdiv_not_assoc⟩⟩
    · decide
    · decide
    · decide

end Sys2Proof
end

section
/-! PROOFS. NaN bits decide nothing else (70_reset_and_hazards.md R234). Two effects run side by side from states that differ only in NaN
bits, and agree piece by piece: `pop`, `push` and the unit keep the agreement, and `bind` passes it on. -/

namespace Sys2Proof.Machine

/-! ### Agreement of raised conditions and of effects -/

/-- The same condition but for the NaN bits of DIV's operands. -/
def SameInfo (k l : FatalInfo) : Prop :=
  k = l ∨ ∃ a b a' b', k = .divisionByZero a b ∧ l = .divisionByZero a' b' ∧ SameValue a a' ∧ SameValue b b'

/-- Two effects that yield related values, raise the same condition, or stop the model with the same fault. -/
def SameEff {α : Type} (R : α → α → Prop) (x y : Eff α) : Prop :=
  (∃ a b, x = .ok a ∧ y = .ok b ∧ R a b) ∨
  (∃ k l, x = .error (.raise k) ∧ y = .error (.raise l) ∧ SameInfo k l) ∨
  ∃ f, x = .error (.model f) ∧ y = .error (.model f)

section SameEff

variable {α : Type} {R : α → α → Prop}

theorem sameEff_ok {a b : α} (h : R a b) : SameEff R (.ok a) (.ok b) := .inl ⟨a, b, rfl, rfl, h⟩

theorem sameEff_raise {k l : FatalInfo} (h : SameInfo k l) : SameEff R (.error (.raise k)) (.error (.raise l)) :=
  .inr (.inl ⟨k, l, rfl, rfl, h⟩)

theorem sameEff_model (f : Fault) : SameEff R (.error (.model f)) (.error (.model f)) := .inr (.inr ⟨f, rfl, rfl⟩)

theorem SameEff.bind {β : Type} {Q : β → β → Prop} {x y : Eff α} {f g : α → Eff β} (h : SameEff R x y)
    (hfg : ∀ a b, R a b → SameEff Q (f a) (g b)) : SameEff Q (x >>= f) (y >>= g) := by
  rcases h with ⟨a, b, rfl, rfl, hab⟩ | ⟨k, l, rfl, rfl, hkl⟩ | ⟨fault, rfl, rfl⟩
  · exact hfg a b hab
  · exact sameEff_raise hkl
  · exact sameEff_model fault

end SameEff

/-! ### Values up to NaNs -/

theorem sameValue_refl (x : Word) : SameValue x x := .inl rfl

theorem isNaN_eq_of_sameValue {x y : Word} (h : SameValue x y) : isNaN x = isNaN y := by
  rcases h with rfl | ⟨hx, hy⟩
  · rfl
  · rw [hx, hy]

theorem eq_of_sameValue {x y : Word} (h : SameValue x y) (hx : isNaN x = false) : x = y := by
  rcases h with rfl | ⟨hn, _⟩
  · rfl
  · rw [hx] at hn; cases hn

theorem sameValue_fneg {x y : Word} (h : SameValue x y) : SameValue (fneg x) (fneg y) := by
  rcases h with rfl | ⟨hx, hy⟩
  · exact .inl rfl
  · exact .inr ⟨by rw [isNaN_fneg, hx], by rw [isNaN_fneg, hy]⟩

/-- The zero test does not see NaN bits: no NaN is a zero. -/
theorem isZeroDivisor_eq_of_sameValue {x y : Word} (h : SameValue x y) : isZeroDivisor x = isZeroDivisor y := by
  rcases h with rfl | ⟨hx, hy⟩
  · rfl
  · simp [isZeroDivisor, feq, hx, hy]

theorem sameOptional_some_left {v : Word} {y : Option Word} (h : SameOptional (some v) y) :
    ∃ w, y = some w ∧ SameValue v w := by
  cases y with
  | none => exact h.elim
  | some w => exact ⟨w, rfl, h⟩

theorem sameOptional_none_left {y : Option Word} (h : SameOptional none y) : y = none := by
  cases y with
  | none => rfl
  | some w => exact h.elim

/-! ### The unit, texts and records up to NaNs -/

/-- The unit: with a NaN operand both results are NaNs, and without one the operands are the same; the zero test sees no NaN bits. -/
theorem sameEff_fpu (op : ArithOp) {a a' b b' : Word} (ha : SameValue a a') (hb : SameValue b b') :
    SameEff SameValue (fpu op a b) (fpu op a' b') := by
  have hzero := isZeroDivisor_eq_of_sameValue hb
  rcases fpu_cases op a b with ⟨r, hr⟩ | ⟨rfl, hz, hr⟩
  · rcases fpu_cases op a' b' with ⟨r', hr'⟩ | ⟨rfl, hz', _⟩
    · rw [hr, hr']
      refine sameEff_ok ?_
      by_cases hn : isNaN a = true ∨ isNaN b = true
      · have hn' : isNaN a' = true ∨ isNaN b' = true := by
          rwa [← isNaN_eq_of_sameValue ha, ← isNaN_eq_of_sameValue hb]
        exact .inr ⟨isNaN_fpu hn hr, isNaN_fpu hn' hr'⟩
      · obtain ⟨hna, hnb⟩ : isNaN a = false ∧ isNaN b = false := by simpa using hn
        obtain rfl := eq_of_sameValue ha hna
        obtain rfl := eq_of_sameValue hb hnb
        exact .inl (Except.ok.inj (hr.symm.trans hr'))
    · rw [fpu_div_zero (hzero.trans hz')] at hr
      cases hr
  · rw [hr, fpu_div_zero (hzero.symm.trans hz)]
    exact sameEff_raise (.inr ⟨a, b, a', b', rfl, rfl, ha, hb⟩)

theorem sameLine_fmt6 {x y : Word} (h : SameValue x y) : SameLine (fmt6 x) (fmt6 y) := by
  rcases h with rfl | ⟨hx, hy⟩
  · exact .inl rfl
  · exact .inr ⟨fmt6_of_isNaN_cases hx, fmt6_of_isNaN_cases hy⟩

theorem sameDiag_diagOf (index : Nat) (byte : Option Byte) {k l : FatalInfo} (h : SameInfo k l) :
    SameDiag (some (diagOf index byte k)) (some (diagOf index byte l)) := by
  have hrefl : ∀ x : Option Word, SameOptional x x := by
    rintro (_ | x)
    · trivial
    · exact sameValue_refl x
  rcases h with rfl | ⟨a, b, a', b', rfl, rfl, ha, hb⟩
  · exact ⟨rfl, rfl, rfl, rfl, hrefl _, hrefl _⟩
  · exact ⟨rfl, rfl, rfl, rfl, ha, hb⟩

/-! ### Updates of two states side by side -/

section Updates

variable {s t : State} (h : SameUpToNaN s t)
include h

theorem sameUpToNaN_withSp (i : Int) : SameUpToNaN { s with sp := i } { t with sp := i } :=
  { h with sp := rfl }

theorem sameUpToNaN_emit {x y : Line} (hxy : SameLine x y) : SameUpToNaN (emit x s) (emit y t) :=
  { h with out := List.rel_append h.out (.cons hxy .nil) }

theorem sameUpToNaN_writeReg (r : Reg) {v w : Word} (hvw : SameValue v w) :
    SameUpToNaN (writeReg s r v) (writeReg t r w) := by
  cases r with
  | r1 => exact { h with r1 := hvw }
  | r2 => exact { h with r2 := hvw }

theorem sameValue_readReg (r : Reg) : SameValue (readReg s r) (readReg t r) := by
  cases r with
  | r1 => exact h.r1
  | r2 => exact h.r2

theorem sameUpToNaN_pushed {v w : Word} (hvw : SameValue v w) (h0 : 0 ≤ s.sp + 1) (h1 : s.sp + 1 < stackCap) :
    SameUpToNaN (s.pushed v) (t.pushed w) := by
  refine { h with sp := by rw [pushed_sp, pushed_sp, h.sp], slot := fun i => ?_ }
  rw [State.slot, State.slot, pushed_stack, pushed_stack, ← h.sp]
  by_cases hi : i = s.sp + 1
  · rw [hi, slotAt_setSlot_same _ _ _ h0 h1, slotAt_setSlot_same _ _ _ h0 h1]
    exact hvw
  · rw [slotAt_setSlot_other _ _ _ _ h0 hi, slotAt_setSlot_other _ _ _ _ h0 hi]
    exact h.slot i

theorem sameUpToNaN_takeFatal (byte : Option Byte) {k l : FatalInfo} (hkl : SameInfo k l) :
    SameUpToNaN (takeFatal s byte k) (takeFatal t byte l) :=
  { h with
    mode := rfl
    diag := by rw [takeFatal_diag, takeFatal_diag, h.pc]; exact sameDiag_diagOf t.pc byte hkl }

theorem sameUpToNaN_takeFetchError (e : DecodeError) : SameUpToNaN (takeFetchError s e) (takeFetchError t e) := by
  cases e with
  | noByte => exact sameUpToNaN_takeFatal h _ (.inl rfl)
  | invalidOpcode b => exact sameUpToNaN_takeFatal h _ (.inl rfl)
  | truncated b => exact sameUpToNaN_takeFatal h _ (.inl rfl)

/-! ### The stack primitives and the effects side by side -/

theorem sameEff_push {v w : Word} (hvw : SameValue v w) : SameEff SameUpToNaN (push v s) (push w t) := by
  rw [push, push, ← h.sp]
  split_ifs with hfull hroom
  · exact sameEff_raise (.inl rfl)
  · exact sameEff_ok (sameUpToNaN_pushed h hvw hroom.1 hroom.2)
  · exact sameEff_model _

theorem sameEff_pop : SameEff (fun x y => SameValue x.1 y.1 ∧ SameUpToNaN x.2 y.2) (pop s) (pop t) := by
  have hslot : SameOptional (s.slot s.sp) (t.slot t.sp) := by rw [← h.sp]; exact h.slot s.sp
  rcases pop_cases s with ⟨hs, e⟩ | ⟨v, hv, e⟩ | ⟨hs, hn, e⟩
  · rw [e, pop_empty (h.sp.symm.trans hs)]
    exact sameEff_raise (.inl rfl)
  · rw [hv] at hslot
    obtain ⟨w, hw, hvw⟩ := sameOptional_some_left hslot
    rw [e, pop_ok hw, h.sp]
    exact sameEff_ok ⟨hvw, sameUpToNaN_withSp h _⟩
  · rw [hn] at hslot
    have ht : pop t = .error (.model .unsetSlot) := by
      rw [pop, if_neg (by rwa [← h.sp]), sameOptional_none_left hslot]
    rw [e, ht]
    exact sameEff_model _

theorem sameEff_popPair :
    SameEff (fun x y => (SameValue x.1.1 y.1.1 ∧ SameValue x.1.2 y.1.2) ∧ SameUpToNaN x.2 y.2) (popPair s) (popPair t) :=
  (sameEff_pop h).bind fun _ _ ⟨hb, h'⟩ => (sameEff_pop h').bind fun _ _ ⟨ha, h''⟩ => sameEff_ok ⟨⟨ha, hb⟩, h''⟩

theorem sameEff_binaryEffect (op : ArithOp) : SameEff SameUpToNaN (binaryEffect op s) (binaryEffect op t) :=
  (sameEff_popPair h).bind fun _ _ ⟨⟨ha, hb⟩, h'⟩ => (sameEff_fpu op ha hb).bind fun _ _ hr => sameEff_push h' hr

theorem sameEff_negEffect : SameEff SameUpToNaN (negEffect s) (negEffect t) :=
  (sameEff_pop h).bind fun _ _ ⟨hb, h'⟩ => sameEff_push h' (sameValue_fneg hb)

theorem sameEff_popReg (r : Reg) : SameEff SameUpToNaN (popReg r s) (popReg r t) :=
  (sameEff_pop h).bind fun _ _ ⟨hv, h'⟩ => sameEff_ok (sameUpToNaN_writeReg h' r hv)

theorem sameEff_printEffect : SameEff SameUpToNaN (printEffect s) (printEffect t) :=
  (sameEff_pop h).bind fun _ _ ⟨hx, h'⟩ => sameEff_ok (sameUpToNaN_emit h' (sameLine_fmt6 hx))

theorem sameEff_moveReg (src dst : BitVec 4) : SameEff SameUpToNaN (moveReg src dst s) (moveReg src dst t) := by
  unfold moveReg
  cases movRegs src dst with
  | none => exact sameEff_raise (.inl rfl)
  | some regs => exact sameEff_ok (sameUpToNaN_writeReg h regs.2 (sameValue_readReg h regs.1))

theorem sameEff_effectOf (i : Instr) : SameEff SameUpToNaN (effectOf i s) (effectOf i t) := by
  cases i with
  | halt => exact sameEff_ok { h with mode := rfl }
  | nop => exact sameEff_ok h
  | dconstM1 | dconst0 | dconst1 | dconst2 | dconst => exact sameEff_push h (sameValue_refl _)
  | add | sub | mul | div => exact sameEff_binaryEffect h _
  | neg => exact sameEff_negEffect h
  | st1 | st2 => exact sameEff_popReg h _
  | ld1 | ld2 => exact sameEff_push h (sameValue_readReg h _)
  | print => exact sameEff_printEffect h
  | mov src dst => exact sameEff_moveReg h src dst

end Updates

/-! ### The step -/

/-- The same outcome, with next states that agree up to NaNs. -/
def SameOutcome (x y : Host.Outcome State Fault Refusal) : Prop :=
  (∃ s t, x = .next s ∧ y = .next t ∧ SameUpToNaN s t) ∨ ∃ f, x = .fault f ∧ y = .fault f

theorem sameOutcome_next {s t : State} (h : SameUpToNaN s t) : SameOutcome (.next s) (.next t) := .inl ⟨s, t, rfl, rfl, h⟩

theorem sameOutcome_complete {s t : State} (h : SameUpToNaN s t) {i : Instr} {f g : State → Eff State}
    (hfg : SameEff SameUpToNaN (f { s with pc := s.pc + i.length }) (g { t with pc := t.pc + i.length })) :
    SameOutcome (complete i s f) (complete i t g) := by
  rcases hfg with ⟨a, b, ha, hb, hab⟩ | ⟨k, l, hk, hl, hkl⟩ | ⟨fault, hs, ht⟩
  · rw [complete_ok ha, complete_ok hb]
    exact sameOutcome_next hab
  · rw [complete_raise hk, complete_raise hl]
    exact sameOutcome_next (sameUpToNaN_takeFatal h _ hkl)
  · exact .inr ⟨fault, by simp only [complete, hs], by simp only [complete, ht]⟩

theorem sameOutcome_exec {s t : State} (h : SameUpToNaN s t) (i : Instr) : SameOutcome (exec i s) (exec i t) := by
  rw [exec_eq_complete, exec_eq_complete]
  refine sameOutcome_complete h (sameEff_effectOf ?_ i)
  exact { h with pc := by rw [h.pc] }

theorem sameOutcome_step {s t : State} (h : SameUpToNaN s t) : SameOutcome (step s) (step t) := by
  have hfetch : fetchBytes t = fetchBytes s := by rw [fetchBytes, fetchBytes, h.prog, h.pc]
  rw [step, step, hfetch, ← h.mode]
  cases s.mode with
  | halted c => exact .inr ⟨.halted, rfl, rfl⟩
  | running =>
    cases decode (fetchBytes s) with
    | error e => exact sameOutcome_next (sameUpToNaN_takeFetchError h e)
    | ok i => exact sameOutcome_exec h i

end Sys2Proof.Machine

namespace Sys2Proof

open Sys2Proof.Machine

/-- Settles O45: the two steps decode the same bytes, and every effect keeps the agreement. -/
theorem nanBitsDecideNothingElse : Obligations.NanBitsDecideNothingElse := by
  intro s t h
  rcases sameOutcome_step h with ⟨s', t', hs, ht, hst⟩ | ⟨f, hs, ht⟩
  · rw [hs, ht]
    refine ⟨fun u hu => ?_, fun f hf => (by cases hf)⟩
    obtain rfl := Host.Outcome.next.inj hu
    exact ⟨t', rfl, hst⟩
  · rw [hs, ht]
    exact ⟨fun u hu => (by cases hu), fun g hg => hg⟩

end Sys2Proof
end

section
/-! PROOFS. The encoding (30_encoding.md, 40_numeric_decoder.md R101 to R103): the byte decoder and `encode64` are inverse, MOV's operand
byte is its two nibbles, an opcode byte names one opcode; so the decoder reads exactly what the encoder writes, and nothing else. -/

namespace Sys2Proof

/-! ### The byte decoder -/

theorem decode64_little_eq_big (b0 b1 b2 b3 b4 b5 b6 b7 : Byte) :
    decode64 .little b0 b1 b2 b3 b4 b5 b6 b7 = decode64 .big b7 b6 b5 b4 b3 b2 b1 b0 := rfl

/-- Byte 0 of a concatenation is the byte appended last. -/
theorem extractByte_append_zero {n : Nat} (x : BitVec n) (b : Byte) : (x ++ b).extractLsb' 0 8 = b :=
  BitVec.extractLsb'_append_eq_right

/-- Every higher byte of a concatenation is a byte of its front part. -/
theorem extractByte_append_add {n : Nat} (x : BitVec n) (b : Byte) (start : Nat) (h : 8 ≤ start) :
    (x ++ b).extractLsb' start 8 = x.extractLsb' (start - 8) 8 :=
  BitVec.extractLsb'_append_eq_of_le h

theorem byteOf_decode64_big (b0 b1 b2 b3 b4 b5 b6 b7 : Byte) :
    byteOf (decode64 .big b0 b1 b2 b3 b4 b5 b6 b7) 7 = b0 ∧ byteOf (decode64 .big b0 b1 b2 b3 b4 b5 b6 b7) 6 = b1 ∧
    byteOf (decode64 .big b0 b1 b2 b3 b4 b5 b6 b7) 5 = b2 ∧ byteOf (decode64 .big b0 b1 b2 b3 b4 b5 b6 b7) 4 = b3 ∧
    byteOf (decode64 .big b0 b1 b2 b3 b4 b5 b6 b7) 3 = b4 ∧ byteOf (decode64 .big b0 b1 b2 b3 b4 b5 b6 b7) 2 = b5 ∧
    byteOf (decode64 .big b0 b1 b2 b3 b4 b5 b6 b7) 1 = b6 ∧ byteOf (decode64 .big b0 b1 b2 b3 b4 b5 b6 b7) 0 = b7 := by
  simp [byteOf, decode64, extractByte_append_zero, extractByte_append_add]

theorem encode64_decode64 (o : WireOrder) (b0 b1 b2 b3 b4 b5 b6 b7 : Byte) :
    encode64 o (decode64 o b0 b1 b2 b3 b4 b5 b6 b7) = [b0, b1, b2, b3, b4, b5, b6, b7] := by
  cases o with
  | big =>
    obtain ⟨h7, h6, h5, h4, h3, h2, h1, h0⟩ := byteOf_decode64_big b0 b1 b2 b3 b4 b5 b6 b7
    simp only [encode64, h7, h6, h5, h4, h3, h2, h1, h0]
  | little =>
    obtain ⟨h7, h6, h5, h4, h3, h2, h1, h0⟩ := byteOf_decode64_big b7 b6 b5 b4 b3 b2 b1 b0
    simp only [encode64, decode64_little_eq_big, h7, h6, h5, h4, h3, h2, h1, h0]

/-- A pattern is the concatenation of its eight bytes: neighbouring bytes join into one longer extract. -/
theorem decode64_big_bytes (w : Word) :
    decode64 .big (byteOf w 7) (byteOf w 6) (byteOf w 5) (byteOf w 4) (byteOf w 3) (byteOf w 2) (byteOf w 1) (byteOf w 0) = w := by
  simp only [decode64, byteOf]
  repeat rw [BitVec.extractLsb'_append_extractLsb'_eq_extractLsb' (by norm_num)]
  exact BitVec.extractLsb'_eq_self

/-- Whatever eight bytes a pattern is encoded as, they decode to it. -/
theorem exists_decode64 (o : WireOrder) (w : Word) : ∃ b0 b1 b2 b3 b4 b5 b6 b7 : Byte,
    encode64 o w = [b0, b1, b2, b3, b4, b5, b6, b7] ∧ decode64 o b0 b1 b2 b3 b4 b5 b6 b7 = w := by
  cases o <;> exact ⟨_, _, _, _, _, _, _, _, rfl, decode64_big_bytes w⟩

/-! ### MOV's operand byte -/

theorem movSrc_movByte (src dst : BitVec 4) : movSrc (movByte src dst) = src := BitVec.extractLsb'_append_eq_left

theorem movDst_movByte (src dst : BitVec 4) : movDst (movByte src dst) = dst := BitVec.extractLsb'_append_eq_right

theorem movByte_nibbles (m : Byte) : movByte (movSrc m) (movDst m) = m := by
  rw [movByte, movSrc, movDst, BitVec.extractLsb'_append_extractLsb'_eq_extractLsb' (by norm_num)]
  exact BitVec.extractLsb'_eq_self

/-! ### The opcode byte -/

theorem mem_all (p : Opcode) : p ∈ Opcode.all := by cases p <;> decide

/-- The opcode found for a byte is one that is assigned that byte. -/
theorem opcode_of_decodeOpcode {m : OpcodeMap} {b : Byte} {p : Opcode} (h : decodeOpcode m b = some p) : m p = b := by
  simpa using List.find?_some h

theorem decodeOpcode_eq_none_iff (m : OpcodeMap) (b : Byte) : decodeOpcode m b = none ↔ ∀ p, m p ≠ b := by
  simp [decodeOpcode, mem_all]

/-- Under a legal map, whose values are distinct (R83), the byte of an opcode is found as that opcode. -/
theorem decodeOpcode_opcode {m : OpcodeMap} (hm : m.Legal) (p : Opcode) : decodeOpcode m (m p) = some p := by
  cases h : decodeOpcode m (m p) with
  | none => exact absurd rfl ((decodeOpcode_eq_none_iff m (m p)).mp h p)
  | some q => rw [hm.1 q p (opcode_of_decodeOpcode h)]

theorem opcodeMap_legal : opcodeMap.Legal := by
  refine ⟨fun p q => ?distinct, fun p => ?reserved⟩
  case distinct => cases p <;> cases q <;> decide
  case reserved => cases p <;> decide

/-- `OPCODE_MAP` assigns the bytes below `0x12` (30_encoding.md R77). -/
theorem exists_opcode_iff (b : Byte) : (∃ p, opcodeMap p = b) ↔ b.toNat < 0x12 := by
  constructor
  · rintro ⟨p, rfl⟩
    cases p <;> decide
  · intro h
    have hall : ∀ k < 0x12, (decodeOpcode opcodeMap (BitVec.ofNat 8 k)).isSome = true := by decide
    obtain ⟨p, hp⟩ := Option.isSome_iff_exists.mp (hall b.toNat h)
    rw [BitVec.ofNat_toNat, BitVec.setWidth_eq] at hp
    exact ⟨p, opcode_of_decodeOpcode hp⟩

/-! ### The operand bytes -/

/-- DCONST has its literal in the first eight bytes, or fewer than eight are there (30_encoding.md R74). -/
theorem decodeOperands_dconst_cases (o : WireOrder) (b : Byte) (rest : List Byte) :
    (∃ b0 b1 b2 b3 b4 b5 b6 b7 tail, rest = b0 :: b1 :: b2 :: b3 :: b4 :: b5 :: b6 :: b7 :: tail ∧
      decodeOperands o b rest .DCONST = .ok (.dconst (decode64 o b0 b1 b2 b3 b4 b5 b6 b7))) ∨
    (rest.length < 8 ∧ decodeOperands o b rest .DCONST = .error (.truncated b)) := by
  rcases rest with _ | ⟨b0, _ | ⟨b1, _ | ⟨b2, _ | ⟨b3, _ | ⟨b4, _ | ⟨b5, _ | ⟨b6, _ | ⟨b7, tail⟩⟩⟩⟩⟩⟩⟩⟩
  case cons.cons.cons.cons.cons.cons.cons.cons => exact .inl ⟨b0, b1, b2, b3, b4, b5, b6, b7, tail, rfl, rfl⟩
  all_goals exact .inr ⟨by simp, rfl⟩

/-- MOV has its operand in the first byte, or none is there (30_encoding.md R73). -/
theorem decodeOperands_mov_cases (o : WireOrder) (b : Byte) (rest : List Byte) :
    (∃ m tail, rest = m :: tail ∧ decodeOperands o b rest .MOV = .ok (.mov (movSrc m) (movDst m))) ∨
    (rest = [] ∧ decodeOperands o b rest .MOV = .error (.truncated b)) := by
  cases rest with
  | nil => exact .inr ⟨rfl, rfl⟩
  | cons m tail => exact .inl ⟨m, tail, rfl, rfl⟩

theorem operandBytes_dconst (o : WireOrder) (b0 b1 b2 b3 b4 b5 b6 b7 : Byte) :
    operandBytes o (.dconst (decode64 o b0 b1 b2 b3 b4 b5 b6 b7)) = [b0, b1, b2, b3, b4, b5, b6, b7] :=
  encode64_decode64 o b0 b1 b2 b3 b4 b5 b6 b7

theorem operandBytes_mov (o : WireOrder) (m : Byte) : operandBytes o (.mov (movSrc m) (movDst m)) = [m] :=
  congrArg (fun c => [c]) (movByte_nibbles m)

theorem decodeOperands_operandBytes (o : WireOrder) (b : Byte) (i : Instr) (rest : List Byte) :
    decodeOperands o b (operandBytes o i ++ rest) i.opcode = .ok i := by
  cases i with
  | dconst lit =>
    obtain ⟨b0, b1, b2, b3, b4, b5, b6, b7, _, rfl⟩ := exists_decode64 o lit
    rw [operandBytes_dconst]
    rfl
  | mov src dst =>
    have hmov : decodeOperands o b (operandBytes o (.mov src dst) ++ rest) .MOV =
        .ok (.mov (movSrc (movByte src dst)) (movDst (movByte src dst))) := rfl
    rw [movSrc_movByte, movDst_movByte] at hmov
    exact hmov
  | _ => rfl

/-- The bytes an instruction was read from are its operand bytes, and its opcode is the one that was found. -/
theorem operandBytes_of_decodeOperands {o : WireOrder} {b : Byte} {rest : List Byte} {p : Opcode} {i : Instr}
    (h : decodeOperands o b rest p = .ok i) : i.opcode = p ∧ ∃ tail, rest = operandBytes o i ++ tail := by
  cases p with
  | DCONST =>
    rcases decodeOperands_dconst_cases o b rest with ⟨b0, b1, b2, b3, b4, b5, b6, b7, tail, rfl, e⟩ | ⟨_, e⟩ <;>
      rw [e] at h <;> cases h
    exact ⟨rfl, tail, by rw [operandBytes_dconst]; rfl⟩
  | MOV =>
    rcases decodeOperands_mov_cases o b rest with ⟨m, tail, rfl, e⟩ | ⟨_, e⟩ <;> rw [e] at h <;> cases h
    exact ⟨rfl, tail, by rw [operandBytes_mov]; rfl⟩
  | _ =>
    cases h
    exact ⟨rfl, rest, rfl⟩

/-- Operand bytes can only be missing: the opcode is known by then. -/
theorem error_of_decodeOperands {o : WireOrder} {b : Byte} {rest : List Byte} {p : Opcode} {e : DecodeError}
    (h : decodeOperands o b rest p = .error e) :
    e = .truncated b ∧ ((p = .DCONST ∧ rest.length < 8) ∨ (p = .MOV ∧ rest = [])) := by
  cases p with
  | DCONST =>
    rcases decodeOperands_dconst_cases o b rest with ⟨_, _, _, _, _, _, _, _, _, _, hd⟩ | ⟨hshort, hd⟩ <;>
      rw [hd] at h <;> cases h
    exact ⟨rfl, .inl ⟨rfl, hshort⟩⟩
  | MOV =>
    rcases decodeOperands_mov_cases o b rest with ⟨_, _, _, hd⟩ | ⟨hnil, hd⟩ <;> rw [hd] at h <;> cases h
    exact ⟨rfl, .inr ⟨rfl, hnil⟩⟩
  | _ => cases h

theorem length_operandBytes (o : WireOrder) (i : Instr) : (operandBytes o i).length + 1 = i.length := by
  cases i with
  | dconst lit => cases o <;> rfl
  | _ => rfl

theorem length_encodeWith (m : OpcodeMap) (o : WireOrder) (i : Instr) : (encodeWith m o i).length = i.length :=
  length_operandBytes o i

/-! ### The decoder -/

theorem decodeWith_cons {m : OpcodeMap} {o : WireOrder} {b : Byte} {rest : List Byte} {p : Opcode}
    (h : decodeOpcode m b = some p) : decodeWith m o (b :: rest) = decodeOperands o b rest p := by
  simp only [decodeWith, h]

theorem decodeWith_encodeWith {m : OpcodeMap} (hm : m.Legal) (o : WireOrder) (i : Instr) (rest : List Byte) :
    decodeWith m o (encodeWith m o i ++ rest) = .ok i := by
  rw [encodeWith, List.cons_append, decodeWith_cons (decodeOpcode_opcode hm i.opcode)]
  exact decodeOperands_operandBytes o _ i rest

theorem decode_encode (i : Instr) (rest : List Byte) : decode (encode i ++ rest) = .ok i :=
  decodeWith_encodeWith opcodeMap_legal wireOrder i rest

/-- What decodes to an instruction is its encoding and a rest. -/
theorem eq_encodeWith_of_decodeWith {m : OpcodeMap} {o : WireOrder} {bytes : List Byte} {i : Instr}
    (h : decodeWith m o bytes = .ok i) : ∃ rest, bytes = encodeWith m o i ++ rest := by
  cases bytes with
  | nil => cases h
  | cons b rest =>
    cases hp : decodeOpcode m b with
    | none => simp only [decodeWith, hp] at h; cases h
    | some p =>
      rw [decodeWith_cons hp] at h
      obtain ⟨rfl, tail, rfl⟩ := operandBytes_of_decodeOperands h
      exact ⟨tail, by rw [encodeWith, opcode_of_decodeOpcode hp, List.cons_append]⟩

/-- Everything the decoder of this block can reject, by the first byte (30_encoding.md R77; 20_memory.md R53). -/
theorem decode_cons_cases (b : Byte) (rest : List Byte) :
    (0x12 ≤ b.toNat ∧ decode (b :: rest) = .error (.invalidOpcode b)) ∨
    ∃ p, opcodeMap p = b ∧ decode (b :: rest) = decodeOperands wireOrder b rest p := by
  cases hp : decodeOpcode opcodeMap b with
  | none =>
    have hno : ¬ ∃ p, opcodeMap p = b := by simpa using (decodeOpcode_eq_none_iff opcodeMap b).mp hp
    rw [exists_opcode_iff, not_lt] at hno
    exact .inl ⟨hno, by simp only [decode, decodeWith, hp]⟩
  | some p => exact .inr ⟨p, opcode_of_decodeOpcode hp, decodeWith_cons hp⟩

theorem decode_invalid_iff (b : Byte) (rest : List Byte) :
    decode (b :: rest) = .error (.invalidOpcode b) ↔ 0x12 ≤ b.toNat := by
  rcases decode_cons_cases b rest with ⟨hb, h⟩ | ⟨p, hp, h⟩
  · exact ⟨fun _ => hb, fun _ => h⟩
  · constructor
    · intro he
      rw [h] at he
      cases (error_of_decodeOperands he).1
    · intro hb
      exact absurd hb (not_le.mpr ((exists_opcode_iff b).mp ⟨p, hp⟩))

end Sys2Proof

namespace Sys2Proof

/-- Settles O2: the opcode byte is found as its opcode because a legal map is injective, and the operand bytes read back by the two
byte decoders' inverse laws. -/
theorem decodeOfEncodeIsTheInstruction : Obligations.DecodeOfEncodeIsTheInstruction :=
  ⟨opcodeMap_legal, fun _ o i rest hm => decodeWith_encodeWith hm o i rest⟩

/-- Settles O3, by the converse round trip of each operand form. -/
theorem decodedBytesAreItsEncoding : Obligations.DecodedBytesAreItsEncoding := by
  intro m o bytes i h
  obtain ⟨rest, hrest⟩ := eq_encodeWith_of_decodeWith h
  exact ⟨rest, hrest, length_encodeWith m o i⟩

/-- Settles O6, by the inverse laws of the byte decoder. -/
theorem byteDecoderIsInvertible : Obligations.ByteDecoderIsInvertible :=
  ⟨encode64_decode64, exists_decode64⟩

/-- Settles O5: the bytes of `decode64 .big` are those that were put in, the first one highest. -/
theorem byteDecoderPlacesEachByte : Obligations.ByteDecoderPlacesEachByte :=
  ⟨byteOf_decode64_big, decode64_little_eq_big⟩

/-- Settles O1, by evaluating the decoder on the eleven byte sequences. -/
theorem decodeReadsTheSpecsWords : Obligations.DecodeReadsTheSpecsWords := by
  unfold Obligations.DecodeReadsTheSpecsWords
  decide

end Sys2Proof
end

section
/-! PROOFS. What the dispatcher reads at `pc` (41_dispatcher.md R122, R126; 20_memory.md R53): the bytes it fetches are the program's,
an encoding that stands there is the instruction that runs, and bytes that are no instruction fail by what is missing or unassigned. -/

namespace Sys2Proof.Machine

/-! ### The window of the program store -/

/-- A window ends before the first index that holds no byte. -/
theorem Memory.window_length_le_of_read_none {m : Memory} {addr n k : Nat} (h : m.read (addr + k) = none) :
    (m.window addr n).length ≤ k := by
  by_contra hc
  have hk : k < (m.window addr n).length := not_le.mp hc
  rw [← Memory.window_getElem? m addr n k hk, List.getElem?_eq_getElem hk] at h
  cases h

/-- In a dense store a window inside the program is complete. -/
theorem Memory.window_length_of_dense {m : Memory} (hm : m.dense = true) {addr n : Nat} (h : addr + n ≤ m.extent) :
    (m.window addr n).length = n := by
  by_contra hc
  have hlt := lt_of_le_of_ne (Memory.window_length_le m addr n) hc
  obtain ⟨b, hb⟩ := Memory.read_dense hm (i := addr + (m.window addr n).length) (by omega)
  rw [Memory.window_stops m addr n hlt] at hb
  cases hb

/-! ### The fetched bytes -/

theorem fetchBytes_of_none {s : State} (h : s.programByte s.pc = none) : fetchBytes s = [] := by
  have h' : Memory.read s.prog s.pc = none := h
  simp only [fetchBytes, maxLength, Memory.window, h']

theorem fetchBytes_of_some {s : State} {b : Byte} (h : s.programByte s.pc = some b) :
    fetchBytes s = b :: Memory.window s.prog (s.pc + 1) 8 := by
  have h' : Memory.read s.prog s.pc = some b := h
  rw [fetchBytes, maxLength, Memory.window, h']

theorem length_le_maxLength (i : Instr) : i.length ≤ maxLength := by
  rw [Instr.length]
  cases i.opcode <;> decide

/-- Where an instruction's encoding stands, it is what the dispatcher decodes. -/
theorem decode_fetchBytes_of_encode {s : State} {i : Instr}
    (h : ∀ k, k < i.length → s.programByte (s.pc + k) = (encode i)[k]?) : decode (fetchBytes s) = .ok i := by
  have hlen : (encode i).length = i.length := length_encodeWith opcodeMap wireOrder i
  obtain ⟨rest, hrest⟩ := Memory.window_of_bytes s.prog s.pc maxLength (encode i) (hlen ▸ length_le_maxLength i) (hlen ▸ h)
  rw [fetchBytes, hrest]
  exact decode_encode i rest

/-- What the dispatcher decodes stands in the program, byte for byte. -/
theorem programByte_of_decode {s : State} {i : Instr} (h : decode (fetchBytes s) = .ok i) {k : Nat} (hk : k < i.length) :
    s.programByte (s.pc + k) = (encode i)[k]? := by
  have hlen : (encode i).length = i.length := length_encodeWith opcodeMap wireOrder i
  obtain ⟨rest, hrest⟩ : ∃ rest, fetchBytes s = encode i ++ rest := eq_encodeWith_of_decodeWith h
  have hlt : k < (fetchBytes s).length := by rw [hrest, List.length_append]; omega
  rw [State.programByte, ← Memory.window_getElem? s.prog s.pc maxLength k hlt, ← fetchBytes, hrest,
    List.getElem?_append_left (by omega)]

theorem opcodeByte_of_decode {s : State} {i : Instr} (h : decode (fetchBytes s) = .ok i) :
    s.programByte s.pc = some i.opcodeByte :=
  programByte_of_decode (k := 0) h (one_le_length i)

/-- An operand is truncated where a byte of it is missing. -/
theorem decodeOperands_short (o : WireOrder) (b : Byte) {rest : List Byte} {p : Opcode} (h : rest.length + 1 < p.length) :
    decodeOperands o b rest p = .error (.truncated b) := by
  cases hd : decodeOperands o b rest p with
  | error e => rw [(error_of_decodeOperands hd).1]
  | ok i =>
    obtain ⟨rfl, tail, rfl⟩ := operandBytes_of_decodeOperands hd
    have hlen := length_operandBytes o i
    rw [List.length_append] at h
    exact absurd hlen (by rw [Instr.length]; omega)

/-- Everything the dispatcher can reject: no byte, an unassigned byte, or an operand with a byte missing. -/
theorem decode_fetchBytes_error {s : State} {e : DecodeError} (h : decode (fetchBytes s) = .error e) :
    (e = .noByte ∧ s.programByte s.pc = none) ∨
    (∃ b, e = .invalidOpcode b ∧ s.programByte s.pc = some b ∧ 0x12 ≤ b.toNat) ∨
    ∃ b, e = .truncated b ∧ s.programByte s.pc = some b ∧
      ((b = opcodeMap .MOV ∧ s.programByte (s.pc + 1) = none) ∨
        (b = opcodeMap .DCONST ∧ ∃ k, k < 8 ∧ s.programByte (s.pc + 1 + k) = none)) := by
  cases hb : s.programByte s.pc with
  | none =>
    rw [fetchBytes_of_none hb] at h
    cases h
    exact .inl ⟨rfl, rfl⟩
  | some b =>
    rw [fetchBytes_of_some hb] at h
    rcases decode_cons_cases b (Memory.window s.prog (s.pc + 1) 8) with ⟨hbig, hd⟩ | ⟨p, rfl, hd⟩
    · rw [hd] at h
      cases h
      exact .inr (.inl ⟨b, rfl, rfl, hbig⟩)
    · rw [hd] at h
      obtain ⟨rfl, hmissing⟩ := error_of_decodeOperands h
      refine .inr (.inr ⟨_, rfl, rfl, ?_⟩)
      rcases hmissing with ⟨rfl, hshort⟩ | ⟨rfl, hnil⟩
      · exact .inr ⟨rfl, _, hshort, Memory.window_stops _ _ _ hshort⟩
      · have hstop := Memory.window_stops s.prog (s.pc + 1) 8 (by rw [hnil]; decide)
        rw [hnil] at hstop
        exact .inl ⟨rfl, hstop⟩

/-! ### The step at each kind of bytes -/

section Step

variable {s : State} (hrun : s.mode = .running)
include hrun

theorem step_of_encode {i : Instr} (h : ∀ k, k < i.length → s.programByte (s.pc + k) = (encode i)[k]?) : step s = exec i s :=
  step_eq_of_ok hrun (decode_fetchBytes_of_encode h)

/-- The opcode fetch runs past the end. -/
theorem step_of_no_byte (h : s.programByte s.pc = none) : step s = .next (failedWith s .programOverrun none none none none) := by
  have hd : decode (fetchBytes s) = .error .noByte := by rw [fetchBytes_of_none h]; rfl
  exact step_eq_of_error hrun hd

theorem step_past_end (h : s.programLength < s.pc + 1) : step s = .next (failedWith s .programOverrun none none none none) :=
  step_of_no_byte hrun (Memory.read_past_extent (Nat.le_of_lt_succ h))

theorem step_of_unassigned {b : Byte} (h : s.programByte s.pc = some b) (hb : 0x12 ≤ b.toNat) :
    step s = .next (failedWith s .invalidOpcode (some b) none none none) := by
  have hd : decode (fetchBytes s) = .error (.invalidOpcode b) := by
    rw [fetchBytes_of_some h]
    exact (decode_invalid_iff b _).mpr hb
  exact step_eq_of_error hrun hd

/-- An operand byte is missing. -/
theorem step_of_truncated {p : Opcode} (h : s.programByte s.pc = some (opcodeMap p)) {k : Nat} (hk : k + 1 < p.length)
    (hnone : s.programByte (s.pc + 1 + k) = none) :
    step s = .next (failedWith s .programOverrun (some (opcodeMap p)) none none none) := by
  have hlen := Memory.window_length_le_of_read_none (n := 8) hnone
  have hd : decode (fetchBytes s) = .error (.truncated (opcodeMap p)) := by
    rw [fetchBytes_of_some h, decode, decodeWith_cons (decodeOpcode_opcode opcodeMap_legal p)]
    exact decodeOperands_short wireOrder _ (by omega)
  exact step_eq_of_error hrun hd

end Step

/-! ### The fields of the record -/

/-- The two legal operand bytes (30_encoding.md R78). -/
theorem legalPair_nibbles_iff (m : Byte) : legalPair (movSrc m) (movDst m) = true ↔ m = 0x12#8 ∨ m = 0x21#8 := by
  constructor
  · intro h
    simp only [legalPair, Bool.or_eq_true, Bool.and_eq_true, beq_iff_eq] at h
    rw [← movByte_nibbles m]
    rcases h with ⟨hs, hd⟩ | ⟨hs, hd⟩ <;> rw [hs, hd]
    · exact .inl rfl
    · exact .inr rfl
  · rintro (rfl | rfl) <;> decide

/-- An illegal pair of nibbles comes from neither legal operand byte. -/
theorem movByte_illegal {src dst : BitVec 4} (h : legalPair src dst = false) :
    movByte src dst ≠ 0x12#8 ∧ movByte src dst ≠ 0x21#8 := by
  rw [← not_or, ← legalPair_nibbles_iff, movSrc_movByte, movDst_movByte, h]
  exact Bool.false_ne_true

theorem pushes_without_pops {i : Instr} (hp : pops i = 0) (hq : pushes i = 1) :
    i = .dconstM1 ∨ i = .dconst0 ∨ i = .dconst1 ∨ i = .dconst2 ∨ (∃ lit, i = .dconst lit) ∨ i = .ld1 ∨ i = .ld2 := by
  cases i <;> simp [pops, pushes] at hp hq ⊢

theorem pops_one {i : Instr} (hp : pops i = 1) : i = .neg ∨ i = .st1 ∨ i = .st2 ∨ i = .print := by
  cases i <;> simp [pops] at hp ⊢

theorem pops_two {i : Instr} (hp : pops i = 2) : i = .add ∨ i = .sub ∨ i = .mul ∨ i = .div := by
  cases i <;> simp [pops] at hp ⊢

end Sys2Proof.Machine

namespace Sys2Proof

open Sys2Proof.Machine

/-- Settles O4: a byte is rejected exactly where the opcode map assigns it to nothing, and the step then takes InvalidOpcode. -/
theorem unassignedBytesRaiseInvalidOpcode : Obligations.UnassignedBytesRaiseInvalidOpcode :=
  ⟨decode_invalid_iff, fun _ _ hrun h hb => step_of_unassigned hrun h hb⟩

/-- Settles O7, by the equation of the step of a running block. -/
theorem stepRunsTheDecodedInstruction : Obligations.StepRunsTheDecodedInstruction :=
  fun _ _ hrun h => step_eq_of_ok hrun h

/-- Settles O8: the window at `pc` begins with the encoding, which decodes to the instruction. -/
theorem stepRunsTheBytesAtPc : Obligations.StepRunsTheBytesAtPc :=
  fun _ _ hrun h => step_of_encode hrun h

/-- Settles O9: a window inside a dense store is complete, and past the end no byte is read. -/
theorem readsPastTheEndRaiseProgramOverrun : Obligations.ReadsPastTheEndRaiseProgramOverrun := by
  refine ⟨fun m addr n hm h => ?inside, fun m addr n h => ?outside, fun s hrun h => step_past_end hrun h,
    fun s hrun hb h => ?mov, fun s hrun hb h => ?dconst⟩
  case inside =>
    have hlen := Memory.window_length_of_dense hm h
    exact ⟨m.window addr n, if_pos ⟨h, hlen⟩, hlen, fun k hk => (Memory.window_getElem? m addr n k (hlen.symm ▸ hk)).symm⟩
  case outside => exact if_neg (fun hc => by omega)
  case mov => exact step_of_truncated (k := 0) hrun hb (by decide) (Memory.read_past_extent (Nat.le_of_lt_succ h))
  case dconst => exact step_of_truncated (k := 7) hrun hb (by decide) (Memory.read_past_extent (Nat.le_of_lt_succ h))

/-- Settles O10, by the equation of the step of a halted block. -/
theorem haltedBlockHasNoStep : Obligations.HaltedBlockHasNoStep :=
  fun s c h => step_halted ((halted_iff s).mpr ⟨c, h⟩)

/-- Settles O14, by the outcome of the step: what the decoder rejected and why, or what the effect raised and when. -/
theorem diagnosticFieldsFollowTheKind : Obligations.DiagnosticFieldsFollowTheKind := by
  refine ⟨rfl, fun s t d hinv hrun h hd => ?_⟩
  rcases step_outcomes hinv hrun with ⟨e, he, hs⟩ | ⟨i, t', _, he, _, hs⟩ | ⟨i, k, hi, he, _, hs⟩ <;>
    obtain rfl := Host.Outcome.next.inj (hs.symm.trans h)
  · rcases decode_fetchBytes_error he with ⟨rfl, hb⟩ | ⟨b, rfl, hb, hbig⟩ | ⟨b, rfl, hb, hmissing⟩ <;>
      obtain rfl := Option.some.inj hd
    · exact ⟨rfl, hb.symm, .inl rfl, rfl, rfl, rfl⟩
    · exact ⟨rfl, hb.symm, ⟨b, rfl, hbig⟩, rfl, rfl, rfl⟩
    · exact ⟨rfl, hb.symm, .inr (hmissing.imp (.imp_left (congrArg some)) (.imp_left (congrArg some))), rfl, rfl, rfl⟩
  · rw [(effectOf_yields he).diag] at hd
    exact absurd hd (by rw [diag_eq_none_of_running hinv hrun]; simp)
  · have hb := (opcodeByte_of_decode hi).symm
    have hraise := effectOf_raises he
    obtain rfl := Option.some.inj hd
    cases k with
    | divisionByZero a b =>
      obtain ⟨rfl, hslotb, hslota, hz⟩ := hraise
      exact ⟨rfl, hb, hi, rfl, hslota.symm, hslotb.symm,
        ((isZeroDivisor_iff_zero_pattern b).mp hz).imp (congrArg some) (congrArg some)⟩
    | invalidArgument m =>
      obtain ⟨src, dst, rfl, hill, rfl⟩ := hraise
      obtain ⟨h12, h21⟩ := movByte_illegal hill
      have hoperand := programByte_of_decode (k := 1) hi Nat.one_lt_two
      exact ⟨rfl, hb, rfl, hoperand.symm, fun hc => h12 (Option.some.inj hc), fun hc => h21 (Option.some.inj hc), rfl, rfl⟩
    | stackOverflow =>
      obtain ⟨hp, hq, hfull⟩ := hraise
      exact ⟨rfl, hb, ⟨i, hi, pushes_without_pops hp hq⟩, hfull, rfl, rfl, rfl⟩
    | stackUnderflow =>
      exact ⟨rfl, hb, ⟨i, hi, hraise.imp (.imp_left pops_one) (.imp_left pops_two)⟩, rfl, rfl, rfl⟩
    | invalidOpcode => exact hraise.elim
    | programOverrun => exact hraise.elim

/-- Settles O52: the encoding of the first line stands at index 0 of the program supplied. -/
theorem assembledProgramRunsItsFirstLine : Obligations.AssembledProgramRunsItsFirstLine := by
  intro i lines
  refine step_of_encode rfl fun k hk => ?_
  have hlen : (encode i).length = i.length := length_encodeWith opcodeMap wireOrder i
  calc (State.start (encode i ++ assemble lines)).programByte (0 + k)
      = (encode i ++ assemble lines)[0 + k]? := Memory.read_ofBytes _ _
    _ = (encode i)[k]? := by rw [Nat.zero_add, List.getElem?_append_left (by omega)]

end Sys2Proof
end

section
/-! PROOFS. What each instruction does (41_dispatcher.md to 45_output.md): one frame for the instructions that push, one equation for each
condition they raise, and from these the statement of each instruction, at `exec` and at the step that reads its operand bytes. -/

namespace Sys2Proof.Machine

/-! ### Pushes -/

/-- The frame of an instruction that pushes `v`: the value in the new top slot, everything else kept. -/
theorem push_frame {i : Instr} {s : State} {v : Word} (h0 : -1 ≤ s.sp) (h1 : s.sp < (stackCap : Int) - 1)
    (h : exec i s = .next { s with pc := s.pc + i.length, sp := s.sp + 1, stack := setSlot s.stack (s.sp + 1) v }) :
    ∃ t, exec i s = .next t ∧ Advanced s t i.length ∧ t.sp = s.sp + 1 ∧ t.slot (s.sp + 1) = some v ∧
      SlotsKeptBut (s.sp + 1) s t ∧ t.r1 = s.r1 ∧ t.r2 = s.r2 ∧ t.out = s.out :=
  ⟨_, h, ⟨rfl, rfl, rfl, fun _ => rfl, rfl⟩, rfl, slotAt_setSlot_same _ _ _ (by omega) (by omega),
    fun _ hj => slotAt_setSlot_other _ _ _ _ (by omega) hj, rfl, rfl, rfl⟩

/-- On a full stack a push raises StackOverflow. -/
theorem exec_push_full {i : Instr} {s : State} {v : Word}
    (hi : effectOf i { s with pc := s.pc + i.length } = push v { s with pc := s.pc + i.length })
    (hfull : s.sp = (stackCap : Int) - 1) :
    exec i s = .next (failedWith s .stackOverflow (some i.opcodeByte) none none none) :=
  exec_raise (hi.trans (push_full v hfull))

/-- The constants and the pattern each pushes (42_constants.md R140 to R144). -/
theorem effectOf_constant {i : Instr} {v : Word}
    (h : (i = .dconstM1 ∧ v = 0xBFF0000000000000#64) ∨ (i = .dconst0 ∧ v = 0x0000000000000000#64) ∨
      (i = .dconst1 ∧ v = 0x3FF0000000000000#64) ∨ (i = .dconst2 ∧ v = 0x4000000000000000#64) ∨ i = .dconst v) :
    effectOf i = push v := by
  rcases h with ⟨rfl, rfl⟩ | ⟨rfl, rfl⟩ | ⟨rfl, rfl⟩ | ⟨rfl, rfl⟩ | rfl <;> rfl

/-! ### Pops -/

/-- With fewer than two values a binary instruction raises StackUnderflow. -/
theorem exec_binary_short {i : Instr} {s : State} {op : ArithOp} (hi : effectOf i = binaryEffect op)
    (h : s.sp = -1 ∨ (s.sp = 0 ∧ ∃ v, s.slot 0 = some v)) :
    exec i s = .next (failedWith s .stackUnderflow (some i.opcodeByte) none none none) := by
  refine exec_raise (k := .stackUnderflow) ?_
  rw [hi]
  exact binaryEffect_short h

theorem exec_popReg_empty {i : Instr} {s : State} {r : Reg} (hi : effectOf i = popReg r) (h : s.sp = -1) :
    exec i s = .next (failedWith s .stackUnderflow (some i.opcodeByte) none none none) := by
  refine exec_raise (k := .stackUnderflow) ?_
  rw [hi]
  exact popReg_empty r h

/-! ### DIV (43_arithmetic.md R155) -/

theorem exec_div_zero {s : State} {a b : Word} (hb : s.slot s.sp = some b) (ha : s.slot (s.sp - 1) = some a)
    (hz : isZeroDivisor b = true) :
    exec .div s = .next (failedWith s .divisionByZero (some (opcodeMap .DIV)) none (some a) (some b)) :=
  exec_raise (k := .divisionByZero a b) (binaryEffect_raise (op := .div) hb ha (fpu_div_zero hz))

/-! ### MOV (44_registers.md R174) -/

theorem exec_mov_r1_r2 (s : State) : exec (.mov 1#4 2#4) s = .next { s with pc := s.pc + 2, r2 := s.r1 } := exec_ok rfl

theorem exec_mov_r2_r1 (s : State) : exec (.mov 2#4 1#4) s = .next { s with pc := s.pc + 2, r1 := s.r2 } := exec_ok rfl

theorem exec_mov_illegal (s : State) {m : Byte} (h12 : m ≠ 0x12#8) (h21 : m ≠ 0x21#8) :
    exec (.mov (movSrc m) (movDst m)) s = .next (failedWith s .invalidArgument (some (opcodeMap .MOV)) (some m) none none) := by
  have hill : ¬ legalPair (movSrc m) (movDst m) = true := by simp [legalPair_nibbles_iff, h12, h21]
  refine exec_raise (k := .invalidArgument m) ?_
  rcases moveReg_cases (movSrc m) (movDst m) { s with pc := s.pc + 2 } with ⟨hs, hd, _⟩ | ⟨hs, hd, _⟩ | ⟨_, e⟩
  · exact absurd (by rw [hs, hd]; decide) hill
  · exact absurd (by rw [hs, hd]; decide) hill
  · rw [movByte_nibbles] at e
    exact e

/-! ### Operand bytes in the program (30_encoding.md R73, R74) -/

/-- The bytes of a MOV in the program are its encoding. -/
theorem mov_bytes {s : State} {m : Byte} (h0 : s.programByte s.pc = some (opcodeMap .MOV)) (h1 : s.programByte (s.pc + 1) = some m) :
    ∀ k, k < (Instr.mov (movSrc m) (movDst m)).length →
      s.programByte (s.pc + k) = (encode (.mov (movSrc m) (movDst m)))[k]? := by
  intro k hk
  have henc : encode (.mov (movSrc m) (movDst m)) = [opcodeMap .MOV, m] := by
    rw [encode, encodeWith, operandBytes_mov]
    rfl
  have hk2 : k < 2 := hk
  rw [henc]
  interval_cases k
  · exact h0
  · exact h1

/-- The bytes of a DCONST in the program are its encoding. -/
theorem dconst_bytes {s : State} {b0 b1 b2 b3 b4 b5 b6 b7 : Byte} (h : s.programByte s.pc = some (opcodeMap .DCONST))
    (h0 : s.programByte (s.pc + 1) = some b0) (h1 : s.programByte (s.pc + 2) = some b1)
    (h2 : s.programByte (s.pc + 3) = some b2) (h3 : s.programByte (s.pc + 4) = some b3)
    (h4 : s.programByte (s.pc + 5) = some b4) (h5 : s.programByte (s.pc + 6) = some b5)
    (h6 : s.programByte (s.pc + 7) = some b6) (h7 : s.programByte (s.pc + 8) = some b7) :
    ∀ k, k < (Instr.dconst (decode64 wireOrder b0 b1 b2 b3 b4 b5 b6 b7)).length →
      s.programByte (s.pc + k) = (encode (.dconst (decode64 wireOrder b0 b1 b2 b3 b4 b5 b6 b7)))[k]? := by
  intro k hk
  have henc : encode (.dconst (decode64 wireOrder b0 b1 b2 b3 b4 b5 b6 b7)) =
      [opcodeMap .DCONST, b0, b1, b2, b3, b4, b5, b6, b7] := by
    rw [encode, encodeWith, operandBytes_dconst]
    rfl
  have hk9 : k < 9 := hk
  rw [henc]
  interval_cases k <;> assumption

end Sys2Proof.Machine

namespace Sys2Proof

open Sys2Proof.Machine

/-- Settles O16: at the last index the fetch after NOP finds no byte. -/
theorem nopOnlyAdvances : Obligations.NopOnlyAdvances := by
  refine ⟨rfl, fun s => ⟨{ s with pc := s.pc + 1 }, exec_ok rfl, rfl, fun hrun hlast => ?_⟩⟩
  exact step_past_end (s := { s with pc := s.pc + 1 }) hrun (Nat.lt_succ_of_le (le_of_eq hlast))

/-- Settles O17, by the frame of a push and its overflow. -/
theorem constantsPushTheirPattern : Obligations.ConstantsPushTheirPattern := by
  intro s i v h
  have hi := effectOf_constant h
  exact ⟨fun h0 h1 => push_frame h0 h1 (exec_push hi h0 h1), fun hfull => exec_push_full (congrFun hi _) hfull⟩

/-- Settles O18: the nine bytes are the encoding of a DCONST with the pattern they decode to; a missing byte is met before the push. -/
theorem dconstPushesItsLiteral : Obligations.DconstPushesItsLiteral := by
  refine fun s hrun h => ⟨fun b0 b1 b2 b3 b4 b5 b6 b7 h0 h1 h2 h3 h4 h5 h6 h7 => ?complete, fun hshort => ?short⟩
  case complete =>
    rw [step_of_encode hrun (dconst_bytes h h0 h1 h2 h3 h4 h5 h6 h7)]
    exact ⟨fun hlo hhi => push_frame hlo hhi (exec_push rfl hlo hhi), fun hfull => exec_push_full rfl hfull⟩
  case short =>
    exact step_of_truncated (k := 7) hrun h (by decide) (Memory.read_past_extent (Nat.le_of_lt_succ hshort))

/-- Settles O19, by the frame of a push and its overflow. -/
theorem loadsPushTheRegister : Obligations.LoadsPushTheRegister := by
  rintro s i v (⟨rfl, rfl⟩ | ⟨rfl, rfl⟩)
  · exact ⟨fun h0 h1 => push_frame (i := .ld1) h0 h1 (exec_pushReg (r := .r1) rfl h0 h1), fun hfull => exec_push_full rfl hfull⟩
  · exact ⟨fun h0 h1 => push_frame (i := .ld2) h0 h1 (exec_pushReg (r := .r2) rfl h0 h1), fun hfull => exec_push_full rfl hfull⟩

/-- Settles O21: the pops are the first thing a binary instruction does. -/
theorem binaryOperationsNeedTwoValues : Obligations.BinaryOperationsNeedTwoValues := by
  rintro s i (rfl | rfl | rfl | rfl) h
  · exact exec_binary_short (op := .add) rfl h
  · exact exec_binary_short (op := .sub) rfl h
  · exact exec_binary_short (op := .mul) rfl h
  · exact exec_binary_short (op := .div) rfl h

/-- Settles O22, by the zero test: it holds exactly on the two zero patterns. -/
theorem divDividesOrFailsOnZero : Obligations.DivDividesOrFailsOnZero := by
  refine ⟨fun s a b _ _ hb ha => ⟨fun hz => ?zero, fun h0 h8 => ?other⟩, fun s h => exec_binary_short (op := .div) rfl h⟩
  case zero => exact exec_div_zero hb ha ((isZeroDivisor_iff_zero_pattern b).mpr hz)
  case other =>
    have hz : ¬ isZeroDivisor b = true := by simp [isZeroDivisor_iff_zero_pattern, h0, h8]
    exact exec_binary_frame (i := .div) rfl hb ha (fpu_div_ok (by simpa using hz))

/-- Settles O23, by the bits of `fneg`; a second NEG finds the flipped pattern on top. -/
theorem negFlipsTheSignOfTheTop : Obligations.NegFlipsTheSignOfTheTop := by
  refine ⟨fun s b h0 h1 hb => ?value, fun s h => exec_raise (k := .stackUnderflow) (negEffect_empty h)⟩
  have hcap : s.sp < stackCap := by omega
  have hadv : Advanced s { s with pc := s.pc + 1, stack := setSlot s.stack s.sp (fneg b) } 1 :=
    ⟨rfl, rfl, rfl, fun _ => rfl, rfl⟩
  have htop : slotAt (setSlot s.stack s.sp (fneg b)) s.sp = some (fneg b) := slotAt_setSlot_same _ _ _ h0 hcap
  refine ⟨_, fneg b, exec_neg hb, hadv, rfl, htop, signBit_fneg b, fun _ hk => getLsbD_fneg_of_lt b hk,
    fun _ hj => slotAt_setSlot_other _ _ _ _ h0 hj, rfl, rfl, rfl, _, exec_neg htop, ?_⟩
  exact (slotAt_setSlot_same _ _ _ h0 hcap).trans (congrArg some (fneg_fneg b))

/-- Settles O24, by the rule of a pop into a register in each case. -/
theorem storesPopIntoTheirRegister : Obligations.StoresPopIntoTheirRegister := by
  refine ⟨rfl, rfl, fun s v _ _ hv => ⟨?st1, ?st2⟩, fun s h => ⟨exec_popReg_empty rfl h, exec_popReg_empty rfl h⟩⟩
  case st1 => exact ⟨_, exec_popReg rfl hv, ⟨rfl, rfl, rfl, fun _ => rfl, rfl⟩, rfl, rfl, rfl, fun _ => rfl, rfl⟩
  case st2 => exact ⟨_, exec_popReg rfl hv, ⟨rfl, rfl, rfl, fun _ => rfl, rfl⟩, rfl, rfl, rfl, fun _ => rfl, rfl⟩

/-- Settles O25, by the nibbles of the operand byte. -/
theorem movCopiesOrRaisesInvalidArgument : Obligations.MovCopiesOrRaisesInvalidArgument := by
  refine fun s => ⟨?to_r2, ?to_r1, fun m h12 h21 => exec_mov_illegal s h12 h21⟩
  case to_r2 => exact ⟨_, exec_mov_r1_r2 s, ⟨rfl, rfl, rfl, fun _ => rfl, rfl⟩, rfl, rfl, rfl, fun _ => rfl, rfl⟩
  case to_r1 => exact ⟨_, exec_mov_r2_r1 s, ⟨rfl, rfl, rfl, fun _ => rfl, rfl⟩, rfl, rfl, rfl, fun _ => rfl, rfl⟩

/-- Settles O26: the two bytes are the encoding of a MOV with the nibbles of the second. -/
theorem movReadsItsOperandByte : Obligations.MovReadsItsOperandByte := by
  refine fun s hrun h => ⟨fun m hm => ?operand, fun hnone => step_of_truncated (k := 0) hrun h (by decide) hnone⟩
  rw [step_of_encode hrun (mov_bytes h hm)]
  refine ⟨?_, ?_, exec_mov_illegal s⟩
  · rintro rfl
    exact ⟨_, exec_mov_r1_r2 s, rfl⟩
  · rintro rfl
    exact ⟨_, exec_mov_r2_r1 s, rfl⟩

/-- Settles O27, by PRINT's effect with a value on the stack and on an empty one. -/
theorem printPopsAndEmitsOneLine : Obligations.PrintPopsAndEmitsOneLine := by
  refine ⟨rfl, fun s x _ _ hx => ?value, fun s h => exec_raise (k := .stackUnderflow) (printEffect_empty h)⟩
  exact ⟨_, exec_print hx, ⟨rfl, rfl, rfl, fun _ => rfl, rfl⟩, rfl, rfl, fun _ => rfl, rfl, rfl⟩

/-- Settles O50: a load after a store writes the value back into the slot it came from. -/
theorem storeThenLoadRestoresTheStack : Obligations.StoreThenLoadRestoresTheStack := by
  intro s v h0 h1 hv
  have hlo : -1 ≤ s.sp - 1 := by omega
  have hhi : s.sp - 1 < (stackCap : Int) - 1 := by omega
  have hback : s.sp - 1 + 1 = s.sp := sub_add_cancel s.sp 1
  have hslots : setSlot s.stack (s.sp - 1 + 1) v = s.stack := by rw [hback]; exact setSlot_of_slotAt hv
  have htop : slotAt (setSlot s.stack (s.sp - 1 + 1) v) (s.sp - 1 + 1) = some v := by rw [hslots, hback]; exact hv
  exact ⟨⟨_, _, exec_popReg rfl hv, exec_pushReg rfl hlo hhi, hslots, hback, rfl, rfl⟩,
    ⟨_, _, exec_popReg rfl hv, exec_pushReg rfl hlo hhi, hslots, hback, rfl, rfl⟩,
    ⟨_, _, _, exec_popReg rfl hv, exec_mov_r1_r2 _, exec_pushReg rfl hlo hhi, hback, htop⟩⟩

end Sys2Proof
end

section
/-! PROOFS. The end of a run (41_dispatcher.md R129; 70_reset_and_hazards.md R233). A step that goes on moves `pc` forward inside the
program, so a run ends; and each step of it does on the stack what the static check counts off the bytes. -/

namespace Sys2Proof.Machine

/-! ### Halted states end a run -/

theorem result_of_halted {s : State} (h : s.halted = true) :
    ∃ n, s.status = some n ∧ s.result = some (n, s.out, s.diag) := by
  obtain ⟨c, hc⟩ := (halted_iff s).mp h
  cases c with
  | success => exact ⟨_, status_of_success hc, by rw [State.result, status_of_success hc]⟩
  | failure => exact ⟨_, status_of_failure hc, by rw [State.result, status_of_failure hc]⟩

/-- A run that starts in a halted state can only be over at once. -/
theorem eq_of_run_of_halted {s t : State} {k : Nat} (hs : s.halted = true) (h : Host.Core.run core k s = .next t) : t = s := by
  cases k with
  | zero => exact (Host.Outcome.next.inj h).symm
  | succ k =>
    rw [run_fault k (step_halted hs)] at h
    cases h

/-! ### A step that goes on -/

theorem pc_lt_of_decode {s : State} {i : Instr} (h : decode (fetchBytes s) = .ok i) : s.pc < s.programLength := by
  by_contra hc
  have hnone : s.programByte s.pc = none := Memory.read_past_extent (not_lt.mp hc)
  rw [opcodeByte_of_decode h] at hnone
  cases hnone

/-- A step that stays running moves `pc` up, inside the same program. -/
theorem step_running {s t : State} (h : step s = .next t) (ht : t.mode = .running) :
    t.programLength = s.programLength ∧ s.pc < t.pc ∧ s.pc < s.programLength := by
  rcases step_fatal_or_completed h with ⟨byte, k, rfl⟩ | ⟨i, hi, he⟩
  · cases ht
  · have hpc : t.pc = s.pc + i.length := (effectOf_yields he).pc
    have hlen := one_le_length i
    exact ⟨by rw [State.programLength, prog_step h, State.programLength], by omega, pc_lt_of_decode hi⟩

/-- From a running state the run is over within one step more than the bytes left. -/
theorem run_ends {s : State} (hinv : BlockInv s) (hrun : s.mode = .running) :
    ∃ k t, k ≤ s.programLength - s.pc + 1 ∧ RunEndsIn s k t := by
  induction hn : s.programLength - s.pc using Nat.strong_induction_on generalizing s with
  | _ n ih =>
    obtain ⟨t, hstep⟩ := runningBlockAlwaysSteps s hinv hrun
    cases hm : t.mode with
    | halted c => exact ⟨1, t, by omega, by rw [run_next 0 hstep, run_zero], (halted_iff t).mpr ⟨c, hm⟩⟩
    | running =>
      obtain ⟨hL, hpc, hlt⟩ := step_running hstep hm
      obtain ⟨k, u, hk, hend, hu⟩ := ih (t.programLength - t.pc) (by omega) (blockInv_step hinv hstep) hm rfl
      exact ⟨k + 1, u, by omega, by rw [run_next k hstep, hend], hu⟩

/-! ### The static check, an equation per case -/

section StaticCheck

variable {m : Memory} {pc depth fuel : Nat}

/-- One round of the static check, as a function of what is decoded at `pc`. -/
def checkDecoded (fuel : Nat) (m : Memory) (pc depth : Nat) : Except DecodeError Instr → Bool
  | .error _ => false
  | .ok .halt => true
  | .ok i =>
    i.wellFormed && decide (pops i ≤ depth) && decide (depth - pops i + pushes i ≤ stackCap) &&
      staticCheck fuel m (pc + i.length) (depth - pops i + pushes i)

theorem staticCheck_succ (fuel : Nat) (m : Memory) (pc depth : Nat) :
    staticCheck (fuel + 1) m pc depth = checkDecoded fuel m pc depth (decode (Memory.window m pc maxLength)) := rfl

theorem staticCheck_error {e : DecodeError} (h : decode (Memory.window m pc maxLength) = .error e) :
    staticCheck (fuel + 1) m pc depth = false := by
  rw [staticCheck_succ, h]
  rfl

theorem staticCheck_halt (h : decode (Memory.window m pc maxLength) = .ok .halt) :
    staticCheck (fuel + 1) m pc depth = true := by
  rw [staticCheck_succ, h]
  rfl

theorem staticCheck_instr {i : Instr} (h : decode (Memory.window m pc maxLength) = .ok i) (hi : i ≠ .halt) :
    staticCheck (fuel + 1) m pc depth =
      (i.wellFormed && decide (pops i ≤ depth) && decide (depth - pops i + pushes i ≤ stackCap) &&
        staticCheck fuel m (pc + i.length) (depth - pops i + pushes i)) := by
  rw [staticCheck_succ, h]
  cases i with
  | halt => exact absurd rfl hi
  | _ => rfl

end StaticCheck

/-! ### The static check and the stack agree -/

/-- A completed instruction passes the checks of its own, and leaves the depth they count. -/
theorem yields_sound {i : Instr} {s t : State} (y : Yields i s t) (hsp : SpInRange s) :
    pops i ≤ (s.sp + 1).toNat ∧ (s.sp + 1).toNat - pops i + pushes i = (t.sp + 1).toNat ∧ (t.sp + 1).toNat ≤ stackCap := by
  obtain ⟨⟨hlo', hhi'⟩, _⟩ := yields_sp_bounds y hsp
  obtain ⟨hlo, hhi⟩ := hsp
  have ht := y.sp
  have henough := y.enough
  omega

/-- An instruction that raises anything but DivisionByZero fails a check of its own. -/
theorem raises_unsound {i : Instr} {s : State} {k : FatalInfo} (h : RaisesOn i s k) (hk : k.kind ≠ .divisionByZero) :
    ¬ (i.wellFormed = true ∧ pops i ≤ (s.sp + 1).toNat ∧ (s.sp + 1).toNat - pops i + pushes i ≤ stackCap) := by
  rintro ⟨hlegal, henough, hroom⟩
  cases k with
  | divisionByZero a b => exact hk rfl
  | invalidArgument m =>
    obtain ⟨_, _, _, hill, _⟩ := h
    rw [hlegal] at hill
    cases hill
  | stackOverflow =>
    obtain ⟨hp, hq, hfull⟩ := h
    omega
  | stackUnderflow => rcases h with ⟨hp, hs⟩ | ⟨hp, hs⟩ <;> omega
  | invalidOpcode => exact h
  | programOverrun => exact h

theorem staticCheck_of_raises {i : Instr} {s : State} {k : FatalInfo} {fuel : Nat} (hd : decode (fetchBytes s) = .ok i)
    (h : RaisesOn i { s with pc := s.pc + i.length } k) (hk : k.kind ≠ .divisionByZero) :
    staticCheck (fuel + 1) s.prog s.pc (s.sp + 1).toNat = false := by
  have hi : i ≠ .halt := by
    rintro rfl
    cases k <;> simp [RaisesOn, pops, pushes] at h
  rw [staticCheck_instr hd hi, Bool.eq_false_iff]
  intro hstatic
  simp only [Bool.and_eq_true, decide_eq_true_eq, and_assoc] at hstatic
  obtain ⟨hlegal, henough, hroom, _⟩ := hstatic
  exact raises_unsound h hk ⟨hlegal, henough, hroom⟩

/-- The end of a run against the static check of the rest of the program, with fuel for every byte left. -/
theorem success_iff_staticCheck {k fuel : Nat} {s t : State} (hinv : BlockInv s) (hrun : s.mode = .running)
    (hfuel : s.programLength - s.pc < fuel) (hend : Host.Core.run core k s = .next t) (hhalt : t.halted = true) :
    t.mode = .halted .success ↔
      staticCheck fuel s.prog s.pc (s.sp + 1).toNat = true ∧ t.diag.map Diag.kind ≠ some .divisionByZero := by
  induction k generalizing s fuel with
  | zero =>
    obtain rfl : s = t := Host.Outcome.next.inj hend
    simp [State.halted, hrun] at hhalt
  | succ k ih =>
    obtain ⟨fuel, rfl⟩ : ∃ f, fuel = f + 1 := ⟨fuel - 1, by omega⟩
    rcases step_outcomes hinv hrun with ⟨e, hd, hs⟩ | ⟨i, u, hd, he, _, hs⟩ | ⟨i, c, hd, he, _, hs⟩ <;>
      rw [run_next k hs] at hend
    · have hmode := takeFetchError_mode s e
      obtain rfl := eq_of_run_of_halted ((halted_iff _).mpr ⟨_, hmode⟩) hend
      simp [hmode, staticCheck_error hd]
    · have y := effectOf_yields he
      by_cases hi : i = .halt
      · subst hi
        have hmode : u.mode = .halted .success := y.mode
        have hdiag : u.diag = none := y.diag.trans (diag_eq_none_of_running (s := s) hinv hrun)
        obtain rfl := eq_of_run_of_halted ((halted_iff _).mpr ⟨_, hmode⟩) hend
        simp [hmode, hdiag, staticCheck_halt hd]
      · have hmode : u.mode = .running := by rw [y.mode, if_neg hi]; exact hrun
        obtain ⟨hL, hpc, hlt⟩ := step_running hs hmode
        obtain ⟨henough, hdepth, hroom⟩ := yields_sound y (s := { s with pc := s.pc + i.length }) hinv.spInRange
        have hupc : u.pc = s.pc + i.length := y.pc
        rw [ih (fuel := fuel) (blockInv_step hinv hs) hmode (by omega) hend, staticCheck_instr hd hi, y.legal, hdepth, prog_step hs, hupc]
        simp [henough, hroom]
    · obtain rfl := eq_of_run_of_halted ((halted_iff _).mpr ⟨_, takeFatal_mode s _ c⟩) hend
      refine ⟨fun h => (by cases h), fun ⟨hstatic, hkind⟩ => ?_⟩
      rw [staticCheck_of_raises hd (effectOf_raises he) (fun hc => hkind (congrArg some hc))] at hstatic
      cases hstatic

end Sys2Proof.Machine

namespace Sys2Proof

open Sys2Proof.Machine

/-- Settles O43: each step that goes on uses up a byte of the program. -/
theorem runEndsWithinTheProgramLength : Obligations.RunEndsWithinTheProgramLength := by
  intro s hinv hrun
  obtain ⟨k, t, hk, hend, hhalt⟩ := run_ends hinv hrun
  exact ⟨k, t, hk, ⟨hend, hhalt⟩, result_of_halted hhalt⟩

/-- Settles O44, by induction on the run: the static check and the stack agree at every step, and a DIV by zero is the one failure the
bytes do not show. -/
theorem successIsDecidedByTheBytesAndZeroDivisors : Obligations.SuccessIsDecidedByTheBytesAndZeroDivisors := by
  rintro s k t hinv hrun ⟨hend, hhalt⟩
  exact success_iff_staticCheck hinv hrun (by omega) hend hhalt

end Sys2Proof
end
